-- ==== Sys2Proof/Word.lean ====
section
/-! DEFINITION. The word types of the CHIP-8 CORE (spec/00_scope.md R7, R8; spec/10_state.md R20). -/

namespace Sys2Proof

/-- One byte: a general register, a memory cell, a timer (R7: `REG_BITS`, `TIMER_BITS`). -/
abbrev Byte := BitVec 8

/-- A byte address of the 4096-byte memory (R7: `ADDR_BITS`). -/
abbrev Addr := BitVec 12

/-- An instruction word, or the index register (R7: `INSN_BITS`, `I_BITS`). -/
abbrev Word := BitVec 16

/-- The index of a general register V0 .. VF (R21). -/
abbrev Reg := Fin 16

/-- The number of a logical key 0x0 .. 0xF (R30). -/
abbrev Key := Fin 16

/-- The flag register VF = V[15] (R22). -/
def flagReg : Reg := 15

/-- The 16 key flags (R30): element k is true when key k is pressed. -/
abbrev KeyVector := Vector Bool 16

/-- The 64 x 32 display (R29): `d[y][x]` is the cell in row y and column x. -/
abbrev Display := Vector (Vector Bool 64) 32

/-- The blank display: every cell off. -/
def blankDisplay : Display := Vector.replicate 32 (Vector.replicate 64 false)

end Sys2Proof
end

