-- ==== Sys2Proof/Syntax.lean ====
section
/-! DEFINITION. The 34 instructions of spec/30_encoding.md R75, one constructor per row of opcode_table.json. -/

namespace Sys2Proof

/-- An instruction with its operands (R72, R73).  `x` and `y` are register indices, `kk` the byte immediate,
`nnn` the address immediate, `n` the row count of a sprite; `g` is a nibble the decoder ignores (R78): it is
kept so that every word that decodes is encoded back as it was, and no meaning reads it. -/
inductive Instr where
  -- control (spec/41_control.md)
  | clearScreen
  | ret
  | jump (nnn : Addr)
  | call (nnn : Addr)
  | skipEqImm (x : Reg) (kk : Byte)
  | skipNeqImm (x : Reg) (kk : Byte)
  | skipEqReg (x y : Reg) (g : BitVec 4)
  | skipNeqReg (x y : Reg) (g : BitVec 4)
  | skipKey (x : Reg)
  | skipNokey (x : Reg)
  | jumpIndexed (nnn : Addr)
  -- alu (spec/42_alu.md)
  | loadImm (x : Reg) (kk : Byte)
  | addImm (x : Reg) (kk : Byte)
  | loadReg (x y : Reg)
  | orReg (x y : Reg)
  | andReg (x y : Reg)
  | xorReg (x y : Reg)
  | addReg (x y : Reg)
  | subReg (x y : Reg)
  | shiftRight (x : Reg) (g : BitVec 4)
  | subRegReverse (x y : Reg)
  | shiftLeft (x : Reg) (g : BitVec 4)
  -- index (spec/43_index.md)
  | loadIndex (nnn : Addr)
  | addIndex (x : Reg)
  | loadFontPtr (x : Reg)
  -- memory (spec/44_memory_ops.md)
  | storeBcd (x : Reg)
  | storeRegs (x : Reg)
  | loadRegs (x : Reg)
  -- timer (spec/45_timer_key.md)
  | readDelay (x : Reg)
  | waitKey (x : Reg)
  | setDelay (x : Reg)
  | setSound (x : Reg)
  -- random (spec/46_random.md)
  | randomAnd (x : Reg) (kk : Byte)
  -- draw (spec/47_draw.md)
  | drawSprite (x y : Reg) (n : Nat)
  deriving DecidableEq, Repr

/-- The canonical mnemonic of R75 and R83: the source's operation name. -/
def Instr.mnemonic : Instr → String
  | .clearScreen => "clear-screen"
  | .ret => "return"
  | .jump _ => "jump"
  | .call _ => "call"
  | .skipEqImm _ _ => "skip-eq-imm"
  | .skipNeqImm _ _ => "skip-neq-imm"
  | .skipEqReg _ _ _ => "skip-eq-reg"
  | .skipNeqReg _ _ _ => "skip-neq-reg"
  | .skipKey _ => "skip-key"
  | .skipNokey _ => "skip-nokey"
  | .jumpIndexed _ => "jump-indexed"
  | .loadImm _ _ => "load-imm"
  | .addImm _ _ => "add-imm"
  | .loadReg _ _ => "load-reg"
  | .orReg _ _ => "or"
  | .andReg _ _ => "and"
  | .xorReg _ _ => "xor"
  | .addReg _ _ => "add-reg"
  | .subReg _ _ => "sub-reg"
  | .shiftRight _ _ => "shift-right"
  | .subRegReverse _ _ => "sub-reg-reverse"
  | .shiftLeft _ _ => "shift-left"
  | .loadIndex _ => "load-index"
  | .addIndex _ => "add-index"
  | .loadFontPtr _ => "load-font-ptr"
  | .storeBcd _ => "store-bcd"
  | .storeRegs _ => "store-regs"
  | .loadRegs _ => "load-regs"
  | .readDelay _ => "read-delay"
  | .waitKey _ => "wait-key"
  | .setDelay _ => "set-delay"
  | .setSound _ => "set-sound"
  | .randomAnd _ _ => "random-and"
  | .drawSprite _ _ _ => "draw-sprite"

/-- The instruction as the assembler of R83 writes it: the ignored nibble is 0. -/
def Instr.assembled : Instr → Instr
  | .skipEqReg x y _ => .skipEqReg x y 0
  | .skipNeqReg x y _ => .skipNeqReg x y 0
  | .shiftRight x _ => .shiftRight x 0
  | .shiftLeft x _ => .shiftLeft x 0
  | i => i

end Sys2Proof
end

