-- ==== Sys2Proof/WellFormed.lean ====
section
/-! DEFINITION. Which instructions are well formed: an operand fits its field (spec/30_encoding.md R72, R74). -/

namespace Sys2Proof

/-- The register indices, immediates and ignored nibbles fit their fields by their types, and all their values
are legal in every instruction (R74).  The one operand that is a plain number is the sprite height, a row count
that must fit the 4-bit field n (R72: `ir[3:0]`). -/
def Instr.wellFormed : Instr → Bool
  | .drawSprite _ _ n => n < 16
  | _ => true

/-- `i` is well formed. -/
abbrev Instr.WellFormed (i : Instr) : Prop := i.wellFormed = true

end Sys2Proof
end

