-- ==== Sys2Proof/Decode.lean ====
section
/-! DEFINITION. The decoder of spec/30_encoding.md R72, R76, R77, R78, R80; the encoder, written from the formats
of R73 and the patterns of R75; the opcode table of R75 as masks and matches. -/

namespace Sys2Proof

/-! ## The fields (R72) -/

/-- `op = ir[15:12]`, the primary group. -/
def fieldOp (w : Word) : Nat := (w.extractLsb' 12 4).toNat

/-- `x = ir[11:8]`. -/
def fieldX (w : Word) : Reg := (w.extractLsb' 8 4).toFin

/-- `y = ir[7:4]`. -/
def fieldY (w : Word) : Reg := (w.extractLsb' 4 4).toFin

/-- `n = ir[3:0]`. -/
def fieldN (w : Word) : Nat := (w.extractLsb' 0 4).toNat

/-- `kk = ir[7:0]`. -/
def fieldKK (w : Word) : Byte := w.extractLsb' 0 8

/-- `nnn = ir[11:0]`. -/
def fieldNNN (w : Word) : Addr := w.extractLsb' 0 12

/-! ## The decoder (R76) -/

/-- Group 0x0: matched on the whole word (R77). -/
def decodeGroup0 (w : Word) : Option Instr :=
  if w = 0x00E0 then some .clearScreen
  else if w = 0x00EE then some .ret
  else none

/-- Group 0x8: selected by the low nibble (R77). -/
def decodeGroup8 (w : Word) : Option Instr :=
  match fieldN w with
  | 0x0 => some (.loadReg (fieldX w) (fieldY w))
  | 0x1 => some (.orReg (fieldX w) (fieldY w))
  | 0x2 => some (.andReg (fieldX w) (fieldY w))
  | 0x3 => some (.xorReg (fieldX w) (fieldY w))
  | 0x4 => some (.addReg (fieldX w) (fieldY w))
  | 0x5 => some (.subReg (fieldX w) (fieldY w))
  | 0x6 => some (.shiftRight (fieldX w) (w.extractLsb' 4 4))
  | 0x7 => some (.subRegReverse (fieldX w) (fieldY w))
  | 0xE => some (.shiftLeft (fieldX w) (w.extractLsb' 4 4))
  | _ => none

/-- Group 0xE: selected by the low byte (R77). -/
def decodeGroupE (w : Word) : Option Instr :=
  match (fieldKK w).toNat with
  | 0x9E => some (.skipKey (fieldX w))
  | 0xA1 => some (.skipNokey (fieldX w))
  | _ => none

/-- Group 0xF: selected by the low byte (R77). -/
def decodeGroupF (w : Word) : Option Instr :=
  match (fieldKK w).toNat with
  | 0x07 => some (.readDelay (fieldX w))
  | 0x0A => some (.waitKey (fieldX w))
  | 0x15 => some (.setDelay (fieldX w))
  | 0x18 => some (.setSound (fieldX w))
  | 0x1E => some (.addIndex (fieldX w))
  | 0x29 => some (.loadFontPtr (fieldX w))
  | 0x33 => some (.storeBcd (fieldX w))
  | 0x55 => some (.storeRegs (fieldX w))
  | 0x65 => some (.loadRegs (fieldX w))
  | _ => none

/-- The two-tier dispatch of R76: the instruction a word spells, or `none` for an unknown word (R80). -/
def decodeWord (w : Word) : Option Instr :=
  match fieldOp w with
  | 0x0 => decodeGroup0 w
  | 0x1 => some (.jump (fieldNNN w))
  | 0x2 => some (.call (fieldNNN w))
  | 0x3 => some (.skipEqImm (fieldX w) (fieldKK w))
  | 0x4 => some (.skipNeqImm (fieldX w) (fieldKK w))
  | 0x5 => some (.skipEqReg (fieldX w) (fieldY w) (w.extractLsb' 0 4))
  | 0x6 => some (.loadImm (fieldX w) (fieldKK w))
  | 0x7 => some (.addImm (fieldX w) (fieldKK w))
  | 0x8 => decodeGroup8 w
  | 0x9 => some (.skipNeqReg (fieldX w) (fieldY w) (w.extractLsb' 0 4))
  | 0xA => some (.loadIndex (fieldNNN w))
  | 0xB => some (.jumpIndexed (fieldNNN w))
  | 0xC => some (.randomAnd (fieldX w) (fieldKK w))
  | 0xD => some (.drawSprite (fieldX w) (fieldY w) (fieldN w))
  | 0xE => decodeGroupE w
  | 0xF => decodeGroupF w
  | _ => none

/-- The word two adjacent bytes assemble to: the byte at the lower address in bits 15:8 (R54). -/
def wordOfBytes (hi lo : Byte) : Word := hi ++ lo

/-- What decoding a list of bytes gives. -/
inductive Decoded where
  /-- An instruction, and the bytes after it. -/
  | instr (i : Instr) (rest : List Byte)
  /-- An unknown instruction word (R80). -/
  | unknown (w : Word)
  /-- Fewer than the two bytes of an instruction (R70). -/
  | truncated
  deriving DecidableEq, Repr

/-- Decoding, total on any bytes. -/
def decodeBytes : List Byte → Decoded
  | hi :: lo :: rest =>
    match decodeWord (wordOfBytes hi lo) with
    | some i => .instr i rest
    | none => .unknown (wordOfBytes hi lo)
  | _ => .truncated

/-- The bytes of an instruction word as the hardware stores them: bits 15:8 at the lower address (R54). -/
def wordBytes (w : Word) : List Byte := [w.extractLsb' 8 8, w.extractLsb' 0 8]

/-- The instruction the decoder reads from an instruction whose table bits are `w` (an instruction is one
16-bit word, so bit 0 of the table is bit 0 of the word; bits from `nbits` up are 0). -/
def decodeTableWord (nbits w : Nat) : Option Instr :=
  match decodeBytes (wordBytes (BitVec.ofNat 16 (w % 2 ^ nbits))) with
  | .instr i _ => some i
  | .unknown _ => none
  | .truncated => none

/-! ## The encoder (R73, R75) -/

/-- A register index as a 4-bit field. -/
def regBits (x : Reg) : BitVec 4 := BitVec.ofFin x

/-- Format A: op, nnn. -/
def formatA (op : BitVec 4) (nnn : Addr) : Word := op ++ nnn

/-- Format XK: op, x, kk. -/
def formatXK (op : BitVec 4) (x : Reg) (kk : Byte) : Word := op ++ regBits x ++ kk

/-- Formats XY, XYF and XYN: op, x, then the nibbles 7:4 and 3:0. -/
def formatXYN (op : BitVec 4) (x : Reg) (y n : BitVec 4) : Word := op ++ regBits x ++ y ++ n

/-- The word of an instruction. -/
def encode : Instr → Word
  | .clearScreen => 0x00E0
  | .ret => 0x00EE
  | .jump nnn => formatA 0x1 nnn
  | .call nnn => formatA 0x2 nnn
  | .skipEqImm x kk => formatXK 0x3 x kk
  | .skipNeqImm x kk => formatXK 0x4 x kk
  | .skipEqReg x y g => formatXYN 0x5 x (regBits y) g
  | .loadImm x kk => formatXK 0x6 x kk
  | .addImm x kk => formatXK 0x7 x kk
  | .loadReg x y => formatXYN 0x8 x (regBits y) 0x0
  | .orReg x y => formatXYN 0x8 x (regBits y) 0x1
  | .andReg x y => formatXYN 0x8 x (regBits y) 0x2
  | .xorReg x y => formatXYN 0x8 x (regBits y) 0x3
  | .addReg x y => formatXYN 0x8 x (regBits y) 0x4
  | .subReg x y => formatXYN 0x8 x (regBits y) 0x5
  | .shiftRight x g => formatXYN 0x8 x g 0x6
  | .subRegReverse x y => formatXYN 0x8 x (regBits y) 0x7
  | .shiftLeft x g => formatXYN 0x8 x g 0xE
  | .skipNeqReg x y g => formatXYN 0x9 x (regBits y) g
  | .loadIndex nnn => formatA 0xA nnn
  | .jumpIndexed nnn => formatA 0xB nnn
  | .randomAnd x kk => formatXK 0xC x kk
  | .drawSprite x y n => formatXYN 0xD x (regBits y) (BitVec.ofNat 4 n)
  | .skipKey x => formatXK 0xE x 0x9E
  | .skipNokey x => formatXK 0xE x 0xA1
  | .readDelay x => formatXK 0xF x 0x07
  | .waitKey x => formatXK 0xF x 0x0A
  | .setDelay x => formatXK 0xF x 0x15
  | .setSound x => formatXK 0xF x 0x18
  | .addIndex x => formatXK 0xF x 0x1E
  | .loadFontPtr x => formatXK 0xF x 0x29
  | .storeBcd x => formatXK 0xF x 0x33
  | .storeRegs x => formatXK 0xF x 0x55
  | .loadRegs x => formatXK 0xF x 0x65

/-- The bytes of an instruction, in ascending addresses (R54). -/
def encodeBytes (i : Instr) : List Byte := wordBytes (encode i)

/-! ## The opcode table (R75) -/

/-- One row's `mask` and `match`: a word w spells the instruction iff `w AND mask = match`. -/
structure OpcodeRow where
  mask : Word
  pattern : Word
  deriving DecidableEq, Repr

/-- The word matches the row. -/
def OpcodeRow.spells (r : OpcodeRow) (w : Word) : Bool := w &&& r.mask == r.pattern

/-- The row of R75 an instruction stands in. -/
def Instr.row : Instr → OpcodeRow
  | .clearScreen => ⟨0xFFFF, 0x00E0⟩
  | .ret => ⟨0xFFFF, 0x00EE⟩
  | .jump _ => ⟨0xF000, 0x1000⟩
  | .call _ => ⟨0xF000, 0x2000⟩
  | .skipEqImm _ _ => ⟨0xF000, 0x3000⟩
  | .skipNeqImm _ _ => ⟨0xF000, 0x4000⟩
  | .skipEqReg _ _ _ => ⟨0xF000, 0x5000⟩
  | .loadImm _ _ => ⟨0xF000, 0x6000⟩
  | .addImm _ _ => ⟨0xF000, 0x7000⟩
  | .loadReg _ _ => ⟨0xF00F, 0x8000⟩
  | .orReg _ _ => ⟨0xF00F, 0x8001⟩
  | .andReg _ _ => ⟨0xF00F, 0x8002⟩
  | .xorReg _ _ => ⟨0xF00F, 0x8003⟩
  | .addReg _ _ => ⟨0xF00F, 0x8004⟩
  | .subReg _ _ => ⟨0xF00F, 0x8005⟩
  | .shiftRight _ _ => ⟨0xF00F, 0x8006⟩
  | .subRegReverse _ _ => ⟨0xF00F, 0x8007⟩
  | .shiftLeft _ _ => ⟨0xF00F, 0x800E⟩
  | .skipNeqReg _ _ _ => ⟨0xF000, 0x9000⟩
  | .loadIndex _ => ⟨0xF000, 0xA000⟩
  | .jumpIndexed _ => ⟨0xF000, 0xB000⟩
  | .randomAnd _ _ => ⟨0xF000, 0xC000⟩
  | .drawSprite _ _ _ => ⟨0xF000, 0xD000⟩
  | .skipKey _ => ⟨0xF0FF, 0xE09E⟩
  | .skipNokey _ => ⟨0xF0FF, 0xE0A1⟩
  | .readDelay _ => ⟨0xF0FF, 0xF007⟩
  | .waitKey _ => ⟨0xF0FF, 0xF00A⟩
  | .setDelay _ => ⟨0xF0FF, 0xF015⟩
  | .setSound _ => ⟨0xF0FF, 0xF018⟩
  | .addIndex _ => ⟨0xF0FF, 0xF01E⟩
  | .loadFontPtr _ => ⟨0xF0FF, 0xF029⟩
  | .storeBcd _ => ⟨0xF0FF, 0xF033⟩
  | .storeRegs _ => ⟨0xF0FF, 0xF055⟩
  | .loadRegs _ => ⟨0xF0FF, 0xF065⟩

end Sys2Proof
end

