-- ==== Sys2Proof/Config.lean ====
section
/-! DEFINITION. The implementation parameters of spec/00_scope.md R7 with their bounds, and the free values of the spec
(spec/10_state.md R35, R36). -/

namespace Sys2Proof

/-- `DRAW_EDGE_POLICY` (R7): what becomes of a sprite pixel off the grid (spec/47_draw.md R186, log 19). -/
inductive EdgePolicy where
  /-- It addresses no cell: the policy of this hardware. -/
  | clip
  /-- It addresses the cell (px mod 64, py mod 32). -/
  | wrap
  /-- A sprite with a set pixel off the grid faults, before anything is drawn. -/
  | fault
  /-- It addresses the cell of the linear index 64 py + px; past the last cell it has no defined meaning. -/
  | replicate
  deriving DecidableEq, Repr

/-- The parameters a launch is given (R7, R35).  They are plain data, held in the state and changed by no
step, so that a statement about every state holds for every choice of them (log 2). -/
structure Config where
  /-- `CYCLES_PER_TICK`, N (R94). -/
  cyclesPerTick : Nat
  /-- `STACK_LOW`: the end of the program region (R58). -/
  stackLow : Nat
  /-- `STACK_HIGH` (R58). -/
  stackHigh : Nat
  /-- `BCD_ONES` as a table: entry v is the ones digit of v; beyond the table the default of R160 holds (log 4). -/
  bcdOnes : List Byte
  /-- `FONT_TABLE`, 80 bytes (R59). -/
  font : List Byte
  /-- `DRAW_EDGE_POLICY` (R186). -/
  drawEdge : EdgePolicy
  /-- Which launch this is: it selects the arbitrary content of the bytes reset leaves unspecified (R36, log 5). -/
  launch : Nat
  deriving DecidableEq, Repr

/-- The bounds R7 sets on the parameters: N >= 1, 0x200 < STACK_LOW <= STACK_HIGH <= 0xFFF, a font of 80 bytes. -/
abbrev Config.Valid (c : Config) : Prop :=
  1 ≤ c.cyclesPerTick ∧ 0x200 < c.stackLow ∧ c.stackLow ≤ c.stackHigh ∧ c.stackHigh ≤ 0xFFF ∧
    c.font.length = 80

/-- FREE VALUE: the key vector the input source presents at a refresh, where `inputs.keyVectors` names none
(R96, log 6).  The argument is the counter of free values used so far. -/
opaque Config.freeKeys : Nat → KeyVector

/-- FREE VALUE: the random byte of a draw, where `inputs.randomBytes` names none (R180, log 7). -/
opaque Config.freeByte : Nat → Byte

/-- FREE VALUE: the choice of WAITKEY_PICK among several pressed keys, where `inputs.picks` names none
(R171, log 8). -/
opaque Config.freePick : Nat → Nat

/-- FREE VALUE: the cause code of the fault that the edge policy `fault` raises; R200 numbers no such cause
(log 19). -/
opaque Config.offGridCode : BitVec 3

/-- FREE VALUE: what the memory byte at an address holds after reset where R36 leaves it unspecified:
arbitrary, but fixed for a launch (log 5).  Arguments: the launch, the address. -/
opaque Config.resetByte : Nat → Nat → Byte

end Sys2Proof
end

