-- ==== Sys2Proof/Machine/State.lean ====
section
/-! DEFINITION. The state of the CHIP-8 CORE (spec/10_state.md R20), the reasons a step stops
(spec/60_exceptions.md R200, R206; spec/40_fetch_decode_cycle.md R97) and the state after reset
(spec/10_state.md R36). -/

namespace Sys2Proof.Machine

/-- The cause of a fault of the core (R200, codes 1 to 3; the fourth only under the edge policy `fault`). -/
inductive FaultCause where
  /-- Code 1: the decoder, on a word that matches no row of the opcode table (R201). -/
  | unknownInstruction
  /-- Code 2: call with 16 entries in use (R202). -/
  | stackOverflow
  /-- Code 3: return with no entry in use (R203). -/
  | stackUnderflow
  /-- draw-sprite with a set pixel off the grid, under the edge policy `fault` of R7 and under no other (log 19).
  The policy of this hardware is clip, so it has the three causes above. -/
  | spriteOffGrid
  deriving DecidableEq, Repr

/-- The fault record `(cause, fault_ia, fault_ir)` (R32, R206). -/
structure FaultRecord where
  cause : FaultCause
  ia : Addr
  ir : Word
  deriving DecidableEq, Repr

/-- Why an operation of the machine stops with a fault. -/
inductive Fault where
  /-- Raised by `step` on a halted core and by nothing else: "a halted core performs no cycle, no key refresh
  and no tick" (R32, R97, R95 "no step").  It carries the record the core presents (R216).  Safe: the core
  stops where the hardware stops (log 1). -/
  | halted (r : FaultRecord)
  /-- Raised by `step` on a core that waits for the loader and by nothing else: "the core waits for the loader before
  its first cycle" (R230), "or the core never starts" (R232), "no cycle is ever performed" (R100).  Safe: the core
  does not run where the hardware does not run (log 11). -/
  | notStarted
  /-- Raised by `State.load` on an empty ROM: LoaderFailure, code 4 (R200, R204).  Safe: the core never
  starts, as on the hardware (log 15). -/
  | loaderFailure
  deriving DecidableEq, Repr

/-- Why an operation of the machine is refused. -/
inductive Refusal where
  /-- Raised by `exec` for an instruction that has no meaning yet (none is left).  Safe. -/
  | notModelled (mnemonic : String)
  /-- Raised by `State.load` on a ROM longer than ROM_CAPACITY: "a model refuses such a launch" (R100).  Safe. -/
  | romTooLarge
  /-- Raised by `State.load` on a core that has been loaded: the loader moves "once, between reset and the first cycle"
  (R214, R99).  Safe (log 15). -/
  | loadAfterStart
  /-- Raised by `exec` for a draw-sprite under the edge policy `replicate` with a set pixel past the last cell, which
  "overruns the buffer, which has no defined meaning" (R186).  No draw of this hardware, whose policy is clip, raises
  it.  Safe (log 19). -/
  | spriteOverrun
  deriving DecidableEq, Repr

/-- Memory: the bytes whose value is not the known reset content, in the canonical form of
`Memory.wf` (Machine/Ops.lean): addresses strictly rising. -/
abbrev Memory := List Host.Cell

/-- The input ports of R214 and the choice of WAITKEY_PICK: what the host presents next.  Where a list is
empty the value is a free one (logs 6, 7, 8).  The model's own field. -/
structure Inputs where
  /-- `key_in` at the next refreshes, the first one first (R96). -/
  keyVectors : List KeyVector
  /-- `rnd_in` at the next draws, the first one first (R180). -/
  randomBytes : List Byte
  /-- The next choices of WAITKEY_PICK (R171). -/
  picks : List Nat
  /-- How many free values have been used. -/
  fresh : Nat
  deriving DecidableEq, Repr

/-- The output ports of R214: the events of the latest step.  The model's own field (log 10). -/
structure Outputs where
  /-- `render_out`: the snapshot handed off at the end of the cycle, if there was a hand-off (R98). -/
  render : Option Display
  /-- `cue_out`: the tick at the end of the step raised the audio cue (R212). -/
  cue : Bool
  deriving DecidableEq, Repr

/-- No event. -/
def Outputs.quiet : Outputs := { render := none, cue := false }

/-- The complete state of the core (R20), with the launch parameters (R7, R35) and the ports (R214). -/
structure State where
  /-- The launch parameters; no step changes them. -/
  cfg : Config
  /-- `V[0..15]`, the general registers; V[15] is the flag (R21, R22). -/
  v : Vector Byte 16
  /-- `I`, the index register (R24). -/
  idx : Word
  /-- `pc`, the program counter, 12 bits stored (R25). -/
  pc : Addr
  /-- `DT`, the delay timer (R27). -/
  dt : Byte
  /-- `ST`, the sound timer (R27). -/
  st : Byte
  /-- `stack[0..15]`, the call-stack entries (R28). -/
  stack : Vector Addr 16
  /-- `sp`, the number of entries in use, 0..16 (R28). -/
  sp : Fin 17
  /-- `mem[0..4095]` (R34). -/
  mem : Memory
  /-- `disp[0..31][0..63]` (R29). -/
  disp : Display
  /-- `keys[0..15]`, the key latch (R30). -/
  keys : KeyVector
  /-- `dirty`, the render request of the current cycle (R31). -/
  dirty : Bool
  /-- `cyc`, the position of the next cycle in its batch (R33). -/
  cyc : Nat
  /-- `halt`, none or the fault record (R32). -/
  halt : Option FaultRecord
  /-- The loader has deposited a ROM since reset: until then the core waits (R230, R232, log 11).  The model's own
  field. -/
  loaded : Bool
  /-- What the host presents next. -/
  inputs : Inputs
  /-- What the latest step presented to the host. -/
  outputs : Outputs
  deriving DecidableEq, Repr

/-- The state after reset (R36, R230) for given parameters and input sources.  The entries of `stack`, which
R36 leaves unspecified, are 0 (DESIGN CHOICE, log 12). -/
def State.resetFor (c : Config) (p : Inputs) : State where
  cfg := c
  v := Vector.replicate 16 0
  idx := 0
  pc := 0x200
  dt := 0
  st := 0
  stack := Vector.replicate 16 0
  sp := 0
  mem := []
  disp := blankDisplay
  keys := Vector.replicate 16 false
  dirty := false
  cyc := 0
  halt := none
  loaded := false
  inputs := p
  outputs := .quiet

/-- The state after reset with the default parameters of R7 and input sources of which nothing is known
(log 2, log 9). -/
def State.reset : State :=
  .resetFor .default { keyVectors := [], randomBytes := [], picks := [], fresh := 0 }

end Sys2Proof.Machine
end

