-- ==== Sys2Proof/Machine/Ops.lean ====
section
/-! DEFINITION. The named operations over memory and registers, taking a fault, and the loops over bytes
(spec/20_memory.md, spec/10_state.md, spec/60_exceptions.md R206). -/

namespace Sys2Proof.Machine

/-- What a meaning answers. -/
abbrev Result := Host.Outcome State Fault Refusal

/-! ## Memory as a list of cells -/

/-- The byte listed at an address. -/
def Memory.lookup : Memory → Nat → Option Byte
  | [], _ => none
  | (k, b) :: m, a => if k = a then some b else Memory.lookup m a

/-- List a byte at an address, in its place in the rising order. -/
def Memory.insert : Memory → Nat → Byte → Memory
  | [], a, v => [(a, v)]
  | (k, b) :: m, a, v =>
    if a < k then (a, v) :: (k, b) :: m
    else if k = a then (a, v) :: m
    else (k, b) :: Memory.insert m a v

/-- List nothing at an address. -/
def Memory.erase : Memory → Nat → Memory
  | [], _ => []
  | (k, b) :: m, a => if k = a then Memory.erase m a else (k, b) :: Memory.erase m a

/-- The reset content of a byte where R36 gives one: the font, and zero in the program region
0x200 .. STACK_LOW - 1.  `none` where R36 leaves the byte unspecified. -/
def background (c : Config) (a : Nat) : Option Byte :=
  if a < 0x50 then c.font[a]?
  else if 0x200 ≤ a ∧ a < c.stackLow then some 0
  else none

/-- What an unlisted address reads as: its reset content (R36); where that is unspecified, a free value,
arbitrary but fixed for the launch (log 5). -/
def unlistedByte (c : Config) (a : Nat) : Byte :=
  (background c a).getD (Config.resetByte c.launch a)

/-- The canonical form: addresses of the space (R50), strictly rising, and no entry that an unlisted address
is known to read as. -/
def Memory.wf (c : Config) (m : Memory) : Bool :=
  decide (m.Pairwise fun p q => p.1 < q.1) &&
  m.all fun p => decide (p.1 < 4096) && decide (background c p.1 ≠ some p.2)

/-- `MemRead(a, 1)` on the list. -/
def Memory.read (c : Config) (m : Memory) (a : Addr) : Byte :=
  (Memory.lookup m a.toNat).getD (unlistedByte c a.toNat)

/-- `MemWrite(a, 1, v)` on the list: writing the known reset content removes the entry. -/
def Memory.write (c : Config) (m : Memory) (a : Addr) (v : Byte) : Memory :=
  if background c a.toNat = some v then Memory.erase m a.toNat
  else Memory.insert m a.toNat v

/-! ## The state's memory (R52, R53) -/

/-- `MemRead(a, 1)` (R52).  It cannot fault. -/
def State.readByte (s : State) (a : Addr) : Byte := Memory.read s.cfg s.mem a

/-- `MemWrite(a, 1, v)` (R53).  It cannot fault, and any address may be written. -/
def State.writeByte (s : State) (a : Addr) (v : Byte) : State :=
  { s with mem := Memory.write s.cfg s.mem a v }

/-- The effective address of base `b` and offset `k`: `(b + k) mod 4096` (R51). -/
def effAddr (b : Word) (k : Nat) : Addr := BitVec.ofNat 12 (b.toNat + k)

/-- The word at address `a`: `MemRead(a,1) : MemRead(a+1,1)` (R54, R56). -/
def State.readWord (s : State) (a : Addr) : Word := wordOfBytes (s.readByte a) (s.readByte (a + 1))

/-- Store a list of bytes at `a`, `a + 1`, ... -/
def State.writeBytes (s : State) (a : Addr) : List Byte → State
  | [] => s
  | b :: bs => (s.writeByte a b).writeBytes (a + 1) bs

/-! ## Registers (R21) -/

/-- `V[x]`. -/
def State.reg (s : State) (x : Reg) : Byte := s.v[x]

/-- `V[x] <- b`. -/
def State.setReg (s : State) (x : Reg) (b : Byte) : State := { s with v := s.v.set x b }

/-- `pc <- a`. -/
def State.setPc (s : State) (a : Addr) : State := { s with pc := a }

/-- `pc <- (pc + 2) mod 4096`: the skip of R114 and the fetch's advance of R91. -/
def State.advancePc (s : State) : State := s.setPc (s.pc + 2)

/-- `ia` during the execute phase, where `pc = (ia + 2) mod 4096` (R8, R91; log 13). -/
def State.ia (s : State) : Addr := s.pc - 2

/-! ## The call stack (R28) -/

/-- `push(a)`: the state with `a` on the stack, or `none` when 16 entries are in use. -/
def State.push (s : State) (a : Addr) : Option State :=
  if h : s.sp.val < 16 then
    some { s with stack := s.stack.set s.sp.val a h, sp := ⟨s.sp.val + 1, by omega⟩ }
  else none

/-- `pop()`: the most recent entry and the state without it, or `none` when the stack is empty.  The entry
keeps its value but is no longer in use. -/
def State.pop (s : State) : Option (Addr × State) :=
  if h : s.sp.val = 0 then none
  else some (s.stack[s.sp.val - 1]'(by omega), { s with sp := ⟨s.sp.val - 1, by omega⟩ })

/-! ## Loops -/

/-- `for k in 0 .. n - 1: s <- f k s`, ascending (R57). -/
def forUpTo (n : Nat) (f : Nat → State → State) (s : State) : State :=
  match n with
  | 0 => s
  | k + 1 => f k (forUpTo k f s)

/-! ## Taking a fault (R206) -/

/-- `raise F(ia, ir)`, in the execute phase or in decode, where the fetch has advanced pc: pc is restored to
`ia`, the record is set, and nothing else changes (R206).  There is no return from a fault: "The only way out
of the halted state is reset" (R207), which is `State.assertReset` in Machine/Ports.lean. -/
def State.raise (s : State) (cause : FaultCause) (ir : Word) : State :=
  { s with pc := s.ia, halt := some { cause := cause, ia := s.ia, ir := ir } }

end Sys2Proof.Machine
end

