-- ==== Sys2Proof/Machine/Flags.lean ====
section
/-! DEFINITION. The flag computations (spec/10_state.md R22: a flag write stores 0x00 or 0x01) and the write order of
spec/42_alu.md R141. -/

namespace Sys2Proof.Machine

/-- A condition as a flag value: 0x01 or 0x00 (R22). -/
def flagByte (p : Bool) : Byte := if p then 1 else 0

/-- add-reg: the carry, `a + b > 255` (R136). -/
def carryFlag (a b : Byte) : Byte := flagByte (decide (a.toNat + b.toNat > 255))

/-- The subtraction `a - b`: 0 if `b > a` else 1, a not-borrow (R137, R139, R142). -/
def notBorrowFlag (a b : Byte) : Byte := flagByte (!decide (b.toNat > a.toNat))

/-- shift-right: bit 0 before the shift (R138). -/
def shiftedOutLow (a : Byte) : Byte := flagByte (a.getLsbD 0)

/-- shift-left: bit 7 before the shift, as 0x00 or 0x01 (R140). -/
def shiftedOutHigh (a : Byte) : Byte := flagByte (a.getLsbD 7)

/-- add-index: the unreduced sum is above 0x0FFF (R151). -/
def indexFlag (i : Word) (b : Byte) : Byte := flagByte (decide (i.toNat + b.toNat > 0x0FFF))

/-- The write order of R141: first the flag to V[15], then the result to V[x].  With x = 15 the result
overwrites the flag. -/
def State.writeFlagged (s : State) (x : Reg) (flag result : Byte) : State :=
  (s.setReg flagReg flag).setReg x result

end Sys2Proof.Machine
end

