-- ==== Sys2Proof/Machine/Operands.lean ====
section
/-! DEFINITION. The operand forms: keys selected by a register, the pressed keys, glyph addresses, decimal
digits, sprite rows, and the host's input values. -/

namespace Sys2Proof.Machine

/-- The key a register selects: the low four bits of V[x] (R122; the spec's D16, log 21). -/
def State.keyOf (s : State) (x : Reg) : Key := ((s.reg x).extractLsb' 0 4).toFin

/-- Key `k` is pressed in the latch (R30). -/
def State.pressed (s : State) (k : Key) : Bool := s.keys[k]

/-- The pressed keys, ascending: the set P of R171. -/
def pressedKeys (keys : KeyVector) : List Key := (List.finRange 16).filter fun k => keys[k]

/-- `5 * V[x]`, exact in 16 bits (R152). -/
def glyphAddr (b : Byte) : Word := BitVec.ofNat 16 (5 * b.toNat)

/-- The hundreds digit of R160. -/
def bcdHundreds (b : Byte) : Byte := BitVec.ofNat 8 (b.toNat / 100)

/-- The tens digit of R160. -/
def bcdTens (b : Byte) : Byte := BitVec.ofNat 8 (b.toNat / 10 % 10)

/-- `BCD_ONES(v)`: the parameter, by its table, and the default `v mod 10` beyond it (R160, log 4). -/
def bcdOnes (c : Config) (b : Byte) : Byte := (c.bcdOnes[b.toNat]?).getD (BitVec.ofNat 8 (b.toNat % 10))

/-- The byte of row `k` of a sprite: `MemRead(I + k, 1)` (R185). -/
def State.spriteRow (s : State) (k : Nat) : Byte := s.readByte (effAddr s.idx k)

/-! ## Values the host presents -/

/-- `key_in` at this refresh (R96, log 6). -/
def Inputs.keyVector (p : Inputs) : KeyVector := p.keyVectors.headD (Config.freeKeys p.fresh)

/-- The inputs after a refresh took its vector. -/
def Inputs.afterKeys (p : Inputs) : Inputs :=
  { p with keyVectors := p.keyVectors.tail
           fresh := if p.keyVectors.isEmpty then p.fresh + 1 else p.fresh }

/-- `rnd()`: the byte of this draw (R180, log 7). -/
def Inputs.randomByte (p : Inputs) : Byte := p.randomBytes.headD (Config.freeByte p.fresh)

/-- The inputs after a draw consumed its byte. -/
def Inputs.afterByte (p : Inputs) : Inputs :=
  { p with randomBytes := p.randomBytes.tail
           fresh := if p.randomBytes.isEmpty then p.fresh + 1 else p.fresh }

/-- This choice of WAITKEY_PICK, as a number (R171, log 8). -/
def Inputs.pick (p : Inputs) : Nat := p.picks.headD (Config.freePick p.fresh)

/-- The inputs after a choice was made. -/
def Inputs.afterPick (p : Inputs) : Inputs :=
  { p with picks := p.picks.tail
           fresh := if p.picks.isEmpty then p.fresh + 1 else p.fresh }

/-- One key of the pressed ones `ks`: the only one there is, or the one the choice `c` names (R171).  `ks` is
not empty where this is used. -/
def pickKey (ks : List Key) (c : Nat) : Key :=
  match ks with
  | [] => 0
  | [k] => k
  | k :: k' :: rest => ((k :: k' :: rest)[c % (rest.length + 2)]?).getD k

end Sys2Proof.Machine
end

