-- ==== Sys2Proof/Machine/Cycle.lean ====
section
/-! DEFINITION. What a step adds around an instruction's meaning: the key refresh, the fetch, the hand-off, the count
and the tick (spec/40_fetch_decode_cycle.md R90 to R98, spec/60_exceptions.md R211, R212). -/

namespace Sys2Proof.Machine

/-- The start of a step: the output ports are silent again (log 10), and at the start of a batch, `cyc = 0`, the
keys are refreshed (R95, R96). -/
def State.beginCycle (s : State) : State :=
  { s with
    keys := if s.cyc = 0 then s.inputs.keyVector else s.keys
    inputs := if s.cyc = 0 then s.inputs.afterKeys else s.inputs
    outputs := .quiet }

/-- The word the fetch reads: the two bytes at pc (R91). -/
def State.fetchWord (s : State) : Word := s.readWord s.pc

/-- The hand-off (R98): if dirty, the render sink is handed the display once and dirty is cleared. -/
def State.handOff (s : State) : State :=
  { s with
    outputs := { s.outputs with render := if s.dirty then some s.disp else s.outputs.render }
    dirty := false }

/-- One unit less, with a floor of zero (R211). -/
def countDown (b : Byte) : Byte := if b = 0 then 0 else b - 1

/-- The tick (R211): the cue if ST is 1 before the decrement (R212), then both timers count down. -/
def State.tick (s : State) : State :=
  { s with
    dt := countDown s.dt
    st := countDown s.st
    outputs := { s.outputs with cue := s.outputs.cue || decide (s.st = 1) } }

/-- The count of R95: `cyc <- cyc + 1`, and at N the tick and `cyc <- 0`. -/
def State.countCycle (s : State) : State :=
  if s.cyc + 1 = s.cfg.cyclesPerTick then { s.tick with cyc := 0 } else { s with cyc := s.cyc + 1 }

/-- The end of a step: after a fault nothing (R90, R95: "a fault: no count, no tick"), otherwise the hand-off
and the count. -/
def State.endCycle (s : State) : State :=
  if s.halt.isSome then s else s.handOff.countCycle

/-- The step function of R95 over the state, for a given execute phase: a halted core performs no step (R97, log 1),
nor does one that waits for the loader (R230, R232, log 11); otherwise refresh, fetch, decode (an unknown word faults
here, R92, R201), execute, hand-off, count. -/
def runCycle (execute : Instr → State → Result) (s : State) : Result :=
  match s.halt with
  | some r => .fault (.halted r)
  | none =>
    if s.loaded then
      let s0 := s.beginCycle
      match decodeWord s0.fetchWord with
      | none => .next (s0.advancePc.raise .unknownInstruction s0.fetchWord)
      | some i =>
        match execute i s0.advancePc with
        | .next t => .next t.endCycle
        | .fault r => .fault r
        | .refused r => .refused r
    else .fault .notStarted

/-- The state with the bytes of the word `w` where the next step fetches, the core loaded and not halted (log 11). -/
def State.placeWord (s : State) (w : Word) : State :=
  { s.writeBytes s.pc (wordBytes w) with halt := none, loaded := true }

end Sys2Proof.Machine
end

