-- ==== Sys2Proof/Machine/Alu.lean ====
section
/-! DEFINITION. The ALU group (spec/42_alu.md).  Operands are read once, before any write (R141); results are
reduced mod 256 (R142). -/

namespace Sys2Proof.Machine

/-- load-imm (R130). -/
def execLoadImm (x : Reg) (kk : Byte) (s : State) : Result := .next (s.setReg x kk)

/-- add-imm (R131): no flag. -/
def execAddImm (x : Reg) (kk : Byte) (s : State) : Result := .next (s.setReg x (s.reg x + kk))

/-- load-reg (R132). -/
def execLoadReg (x y : Reg) (s : State) : Result := .next (s.setReg x (s.reg y))

/-- or (R133): no flag. -/
def execOrReg (x y : Reg) (s : State) : Result := .next (s.setReg x (s.reg x ||| s.reg y))

/-- and (R134): no flag. -/
def execAndReg (x y : Reg) (s : State) : Result := .next (s.setReg x (s.reg x &&& s.reg y))

/-- xor (R135): no flag. -/
def execXorReg (x y : Reg) (s : State) : Result := .next (s.setReg x (s.reg x ^^^ s.reg y))

/-- add-reg (R136, R141). -/
def execAddReg (x y : Reg) (s : State) : Result :=
  .next (s.writeFlagged x (carryFlag (s.reg x) (s.reg y)) (s.reg x + s.reg y))

/-- sub-reg (R137, R141). -/
def execSubReg (x y : Reg) (s : State) : Result :=
  .next (s.writeFlagged x (notBorrowFlag (s.reg x) (s.reg y)) (s.reg x - s.reg y))

/-- shift-right (R138, R141): V[y] takes no part. -/
def execShiftRight (x : Reg) (_g : BitVec 4) (s : State) : Result :=
  .next (s.writeFlagged x (shiftedOutLow (s.reg x)) (s.reg x >>> 1))

/-- sub-reg-reverse (R139, R141). -/
def execSubRegReverse (x y : Reg) (s : State) : Result :=
  .next (s.writeFlagged x (notBorrowFlag (s.reg y) (s.reg x)) (s.reg y - s.reg x))

/-- shift-left (R140, R141): V[y] takes no part. -/
def execShiftLeft (x : Reg) (_g : BitVec 4) (s : State) : Result :=
  .next (s.writeFlagged x (shiftedOutHigh (s.reg x)) (s.reg x <<< 1))

end Sys2Proof.Machine
end

