-- ==== Sys2Proof/Machine/Control.lean ====
section
/-! DEFINITION. The control group (spec/41_control.md).  A meaning runs in the execute phase: the fetch has already
set `pc = (ia + 2) mod 4096` (R91), and every meaning that does not name pc leaves it so (R26). -/

namespace Sys2Proof.Machine

/-- clear-screen (R110): every cell off, dirty set (the spec's D15, log 22). -/
def execClearScreen (s : State) : Result :=
  .next { s with disp := blankDisplay, dirty := true }

/-- return (R111): pop an address and go to it plus 2; on an empty stack StackUnderflow (R203). -/
def execRet (s : State) : Result :=
  match s.pop with
  | none => .next (s.raise .stackUnderflow (encode .ret))
  | some (a, t) => .next (t.setPc (a + 2))

/-- jump (R112). -/
def execJump (nnn : Addr) (s : State) : Result := .next (s.setPc nnn)

/-- call (R113): push `ia`, the call's own address, and go to nnn; on a full stack StackOverflow (R202). -/
def execCall (nnn : Addr) (s : State) : Result :=
  match s.push s.ia with
  | none => .next (s.raise .stackOverflow (encode (.call nnn)))
  | some t => .next (t.setPc nnn)

/-- A skip: pc moves 2 further if the condition holds (R121). -/
def State.skipIf (s : State) (p : Bool) : State := s.setPc (if p then s.pc + 2 else s.pc)

/-- skip-eq-imm (R114). -/
def execSkipEqImm (x : Reg) (kk : Byte) (s : State) : Result := .next (s.skipIf (s.reg x == kk))

/-- skip-neq-imm (R115). -/
def execSkipNeqImm (x : Reg) (kk : Byte) (s : State) : Result := .next (s.skipIf (s.reg x != kk))

/-- skip-eq-reg (R116); the ignored nibble is not read (R78). -/
def execSkipEqReg (x y : Reg) (_g : BitVec 4) (s : State) : Result := .next (s.skipIf (s.reg x == s.reg y))

/-- skip-neq-reg (R117); the ignored nibble is not read (R78). -/
def execSkipNeqReg (x y : Reg) (_g : BitVec 4) (s : State) : Result := .next (s.skipIf (s.reg x != s.reg y))

/-- skip-key (R118): the key selected by the low four bits of V[x] (R122). -/
def execSkipKey (x : Reg) (s : State) : Result := .next (s.skipIf (s.pressed (s.keyOf x)))

/-- skip-nokey (R119). -/
def execSkipNokey (x : Reg) (s : State) : Result := .next (s.skipIf (!s.pressed (s.keyOf x)))

/-- jump-indexed (R120): `(nnn + V[0]) mod 4096`. -/
def execJumpIndexed (nnn : Addr) (s : State) : Result := .next (s.setPc (nnn + (s.reg 0).setWidth 12))

end Sys2Proof.Machine
end

