-- ==== Sys2Proof/Machine/Draw.lean ====
section
/-! DEFINITION. The draw group and the XOR sprite blitter (spec/47_draw.md). -/

namespace Sys2Proof.Machine

/-- The blitter's working values: the display and `hit` (R185). -/
structure Blit where
  disp : Display
  hit : Bool
  deriving DecidableEq, Repr

/-- The cell the sprite pixel (px, py) addresses, if any (R186): the cell (px, py) if it is on the grid, and off the
grid none; under wrap the cell (px mod 64, py mod 32); under replicate the cell of the linear index 64 py + px, if
there is one (log 19). -/
def pixelCell (e : EdgePolicy) (px py : Nat) : Option (Fin 64 × Fin 32) :=
  match e with
  | .clip | .fault => if h : px < 64 ∧ py < 32 then some (⟨px, h.1⟩, ⟨py, h.2⟩) else none
  | .wrap => some (⟨px % 64, Nat.mod_lt _ (by omega)⟩, ⟨py % 32, Nat.mod_lt _ (by omega)⟩)
  | .replicate =>
    if h : 64 * py + px < 2048 then
      some (⟨(64 * py + px) % 64, Nat.mod_lt _ (by omega)⟩, ⟨(64 * py + px) / 64, by omega⟩)
    else none

/-- A set pixel at (px, py) keeps the sprite from being drawn: under fault one off the grid, under replicate one past
the last cell (R186, log 19). -/
def pixelOutside (e : EdgePolicy) (px py : Nat) : Bool :=
  match e with
  | .clip | .wrap => false
  | .fault => decide (63 < px ∨ 31 < py)
  | .replicate => decide (2048 ≤ 64 * py + px)

/-- Some set pixel of the sprite keeps it from being drawn. -/
def spriteOutside (e : EdgePolicy) (rows : Nat → Byte) (x0 y0 n : Nat) : Bool :=
  (List.range n).any fun row => (List.range 8).any fun col =>
    pixelOutside e (x0 + col) (y0 + row) && (rows row).getLsbD (7 - col)

/-- A set sprite pixel at (px, py): if it addresses a cell, it collides if the cell is on, and the cell is XORed with 1
(R185, R188). -/
def Blit.pixel (e : EdgePolicy) (b : Blit) (px py : Nat) : Blit :=
  match pixelCell e px py with
  | none => b
  | some (x, y) => { disp := b.disp.set y (b.disp[y].set x (!b.disp[y][x])), hit := b.hit || b.disp[y][x] }

/-- Columns `0 .. n - 1` of the sprite byte `r`, drawn in row `py` from column `x0`: bit 7 is column 0 (R187). -/
def Blit.columns (e : EdgePolicy) (r : Byte) (x0 py : Nat) (b : Blit) : Nat → Blit
  | 0 => b
  | col + 1 =>
    let c := Blit.columns e r x0 py b col
    if r.getLsbD (7 - col) then c.pixel e (x0 + col) py else c

/-- Rows `0 .. n - 1` of the sprite whose bytes are `rows`, downward from row `y0` (R185, R187). -/
def Blit.rows (e : EdgePolicy) (rows : Nat → Byte) (x0 y0 : Nat) (b : Blit) : Nat → Blit
  | 0 => b
  | row + 1 => Blit.columns e (rows row) x0 (y0 + row) (Blit.rows e rows x0 y0 b row) 8

/-- draw-sprite (R185): V[x], V[y] and I are read first (R190); the sprite bytes are read from memory, which the
instruction does not write (log 24); V[15] receives the collision flag, dirty is set.  Under the policy of this
hardware, clip, and under wrap it always draws; a sprite the policies fault or replicate do not let be drawn faults
before anything is written, or is refused (R186, log 19). -/
def execDrawSprite (x y : Reg) (n : Nat) (s : State) : Result :=
  let x0 := (s.reg x).toNat
  let y0 := (s.reg y).toNat
  if spriteOutside s.cfg.drawEdge s.spriteRow x0 y0 n then
    if s.cfg.drawEdge = .fault then .next (s.raise .spriteOffGrid (encode (.drawSprite x y n)))
    else .refused .spriteOverrun
  else
    let b := Blit.rows s.cfg.drawEdge s.spriteRow x0 y0 { disp := s.disp, hit := false } n
    .next { s.setReg flagReg (flagByte b.hit) with disp := b.disp, dirty := true }

end Sys2Proof.Machine
end

