-- ==== Sys2Proof/Machine/Index.lean ====
section
/-! DEFINITION. The index group (spec/43_index.md). -/

namespace Sys2Proof.Machine

/-- load-index (R150): zero-extended to 16 bits. -/
def execLoadIndex (nnn : Addr) (s : State) : Result := .next { s with idx := nnn.setWidth 16 }

/-- add-index (R151): I and V[x] are read once, the flag compares the unreduced sum with 0x0FFF, and I keeps
all 16 bits (log 20). -/
def execAddIndex (x : Reg) (s : State) : Result :=
  .next { s.setReg flagReg (indexFlag s.idx (s.reg x)) with idx := s.idx + (s.reg x).setWidth 16 }

/-- load-font-ptr (R152): `5 * V[x]`, V[x] used whole. -/
def execLoadFontPtr (x : Reg) (s : State) : Result := .next { s with idx := glyphAddr (s.reg x) }

end Sys2Proof.Machine
end

