-- ==== Sys2Proof/Machine/Random.lean ====
section
/-! DEFINITION. The random group (spec/46_random.md). -/

namespace Sys2Proof.Machine

/-- random-and (R180): one byte is consumed from the random-byte input, whatever kk is. -/
def execRandomAnd (x : Reg) (kk : Byte) (s : State) : Result :=
  .next { s.setReg x (s.inputs.randomByte &&& kk) with inputs := s.inputs.afterByte }

end Sys2Proof.Machine
end

