-- ==== Sys2Proof/Machine/Timer.lean ====
section
/-! DEFINITION. The timer group (spec/45_timer_key.md). -/

namespace Sys2Proof.Machine

/-- read-delay (R170). -/
def execReadDelay (x : Reg) (s : State) : Result := .next (s.setReg x s.dt)

/-- wait-key (R171): with no key pressed pc goes back to `ia` and nothing else changes; otherwise V[x] receives
the number of one pressed key.  When several are pressed the choice is the input WAITKEY_PICK (log 8). -/
def execWaitKey (x : Reg) (s : State) : Result :=
  let ks := pressedKeys s.keys
  .next { s with
    pc := if ks.isEmpty then s.ia else s.pc
    v := if ks.isEmpty then s.v else s.v.set x (BitVec.ofNat 8 (pickKey ks s.inputs.pick).val)
    inputs := if 2 ≤ ks.length then s.inputs.afterPick else s.inputs }

/-- set-delay (R172). -/
def execSetDelay (x : Reg) (s : State) : Result := .next { s with dt := s.reg x }

/-- set-sound (R173). -/
def execSetSound (x : Reg) (s : State) : Result := .next { s with st := s.reg x }

end Sys2Proof.Machine
end

