-- ==== Sys2Proof/Machine/Transfer.lean ====
section
/-! DEFINITION. The memory group (spec/44_memory_ops.md): base register I, offsets ascending, I unchanged (R163). -/

namespace Sys2Proof.Machine

/-- store-bcd (R160): hundreds at I, tens at I + 1, ones at I + 2. -/
def execStoreBcd (x : Reg) (s : State) : Result :=
  .next (((s.writeByte (effAddr s.idx 0) (bcdHundreds (s.reg x))).writeByte
    (effAddr s.idx 1) (bcdTens (s.reg x))).writeByte (effAddr s.idx 2) (bcdOnes s.cfg (s.reg x)))

/-- One transfer of store-regs: `MemWrite(I + k, 1, V[k])`. -/
def State.storeReg (k : Nat) (s : State) : State := s.writeByte (effAddr s.idx k) (s.reg (Fin.ofNat 16 k))

/-- One transfer of load-regs: `V[k] <- MemRead(I + k, 1)`. -/
def State.fetchReg (k : Nat) (s : State) : State := s.setReg (Fin.ofNat 16 k) (s.readByte (effAddr s.idx k))

/-- store-regs (R161): V[0] .. V[x], ascending. -/
def execStoreRegs (x : Reg) (s : State) : Result := .next (forUpTo (x.val + 1) State.storeReg s)

/-- load-regs (R162): V[0] .. V[x], ascending. -/
def execLoadRegs (x : Reg) (s : State) : Result := .next (forUpTo (x.val + 1) State.fetchReg s)

end Sys2Proof.Machine
end

