-- ==== Sys2Proof/Machine/Dispatch.lean ====
section
/-! DEFINITION. The dispatch: one arm per instruction, one meaning per arm. -/

namespace Sys2Proof.Machine

def exec (i : Instr) (s : State) : Host.Outcome State Fault Refusal :=
  match i with
  | .clearScreen => Sys2Proof.Machine.execClearScreen s
  | .ret => Sys2Proof.Machine.execRet s
  | .jump nnn => Sys2Proof.Machine.execJump nnn s
  | .call nnn => Sys2Proof.Machine.execCall nnn s
  | .skipEqImm x kk => Sys2Proof.Machine.execSkipEqImm x kk s
  | .skipNeqImm x kk => Sys2Proof.Machine.execSkipNeqImm x kk s
  | .skipEqReg x y g => Sys2Proof.Machine.execSkipEqReg x y g s
  | .skipNeqReg x y g => Sys2Proof.Machine.execSkipNeqReg x y g s
  | .skipKey x => Sys2Proof.Machine.execSkipKey x s
  | .skipNokey x => Sys2Proof.Machine.execSkipNokey x s
  | .jumpIndexed nnn => Sys2Proof.Machine.execJumpIndexed nnn s
  | .loadImm x kk => Sys2Proof.Machine.execLoadImm x kk s
  | .addImm x kk => Sys2Proof.Machine.execAddImm x kk s
  | .loadReg x y => Sys2Proof.Machine.execLoadReg x y s
  | .orReg x y => Sys2Proof.Machine.execOrReg x y s
  | .andReg x y => Sys2Proof.Machine.execAndReg x y s
  | .xorReg x y => Sys2Proof.Machine.execXorReg x y s
  | .addReg x y => Sys2Proof.Machine.execAddReg x y s
  | .subReg x y => Sys2Proof.Machine.execSubReg x y s
  | .shiftRight x g => Sys2Proof.Machine.execShiftRight x g s
  | .subRegReverse x y => Sys2Proof.Machine.execSubRegReverse x y s
  | .shiftLeft x g => Sys2Proof.Machine.execShiftLeft x g s
  | .loadIndex nnn => Sys2Proof.Machine.execLoadIndex nnn s
  | .addIndex x => Sys2Proof.Machine.execAddIndex x s
  | .loadFontPtr x => Sys2Proof.Machine.execLoadFontPtr x s
  | .storeBcd x => Sys2Proof.Machine.execStoreBcd x s
  | .storeRegs x => Sys2Proof.Machine.execStoreRegs x s
  | .loadRegs x => Sys2Proof.Machine.execLoadRegs x s
  | .readDelay x => Sys2Proof.Machine.execReadDelay x s
  | .waitKey x => Sys2Proof.Machine.execWaitKey x s
  | .setDelay x => Sys2Proof.Machine.execSetDelay x s
  | .setSound x => Sys2Proof.Machine.execSetSound x s
  | .randomAnd x kk => Sys2Proof.Machine.execRandomAnd x kk s
  | .drawSprite x y n => Sys2Proof.Machine.execDrawSprite x y n s

end Sys2Proof.Machine
end

