-- ==== Sys2Proof/Machine/Step.lean ====
section
/-! DEFINITION. One step of the core (spec/40_fetch_decode_cycle.md R95). -/

namespace Sys2Proof.Machine

/-- One instruction cycle with what surrounds it. -/
def step (s : State) : Host.Outcome State Fault Refusal := runCycle exec s

/-- `s` with the instruction word `w` where `step` fetches its next instruction (bits from `nbits` up are 0). -/
def State.withFetchWord (s : State) (nbits w : Nat) : State :=
  s.placeWord (BitVec.ofNat 16 (w % 2 ^ nbits))

end Sys2Proof.Machine
end

