-- ==== Sys2Proof/Machine/Ports.lean ====
section
/-! DEFINITION. The host's interfaces that fall between steps (spec/60_exceptions.md R214): reset, the program loader,
the fault report, the debug snapshot. -/

namespace Sys2Proof.Machine

/-- The cause codes of R200, as the 3 bits of the fault report (R214). -/
def FaultCause.code : FaultCause → BitVec 3
  | .unknownInstruction => 1
  | .stackOverflow => 2
  | .stackUnderflow => 3
  | .spriteOffGrid => Config.offGridCode

/-- The code of a stop: the record's cause, or 4 for LoaderFailure (R200); none for a core that has not started. -/
def Fault.code : Fault → Option (BitVec 3)
  | .halted r => some r.cause.code
  | .loaderFailure => some 4
  | .notStarted => none

/-- `reset`, asserted at any time (R230): every piece of state takes its reset value, the fault record is cleared, the
core waits for the loader (log 11), and the next launch begins: its unspecified bytes are arbitrary anew (log 5).  The
host's sources stay connected (log 14). -/
def State.assertReset (s : State) : State :=
  .resetFor { s.cfg with launch := s.cfg.launch + 1 } s.inputs

/-- `ROM_CAPACITY = STACK_LOW - 0x200` (R7, R58). -/
def romCapacity (c : Config) : Nat := c.stackLow - 0x200

/-- `load` (R100, R214), once, between reset and the first cycle: the ROM's bytes at 0x200 upward, and the core that
waited for them may start (R230).  On a core that was loaded it is no move of the host (R99).  An empty ROM is
LoaderFailure (R204) and a ROM longer than the capacity is refused (R100): the core then never starts. -/
def State.load (rom : List Byte) (s : State) : Result :=
  if s.loaded then .refused .loadAfterStart
  else if rom.isEmpty then .fault .loaderFailure
  else if romCapacity s.cfg < rom.length then .refused .romTooLarge
  else .next { s.writeBytes 0x200 rom with loaded := true }

/-- `fault_out` (R216): the record, or none for "running". -/
def State.faultReport (s : State) : Option FaultRecord := s.halt

/-- `dbg_out` (R219): sp and stack[0..15]. -/
def State.debugSnapshot (s : State) : Fin 17 × Vector Addr 16 := (s.sp, s.stack)

end Sys2Proof.Machine
end

