-- ==== Sys2Proof/Safety.lean ====
section
/-! DEFINITION. What holds between the steps of a run, and what a safe run is. -/

namespace Sys2Proof.Machine

/-- What a fault record says of the state it stands in (R206, R201, R202, R203): pc is the recorded address, the
recorded word is the one stored there, and the cause is the one that word has in this state (the last only under
the edge policy `fault`, log 19). -/
def FaultRecord.Explains (r : FaultRecord) (s : State) : Prop :=
  s.pc = r.ia ∧ s.fetchWord = r.ir ∧
  match r.cause with
  | .unknownInstruction => decodeWord r.ir = none
  | .stackOverflow => s.sp.val = 16 ∧ ∃ nnn, decodeWord r.ir = some (.call nnn)
  | .stackUnderflow => s.sp.val = 0 ∧ decodeWord r.ir = some .ret
  | .spriteOffGrid => s.cfg.drawEdge = .fault ∧ ∃ x y n, decodeWord r.ir = some (.drawSprite x y n) ∧
      spriteOutside s.cfg.drawEdge s.spriteRow (s.reg x).toNat (s.reg y).toNat n = true

/-- The invariant of a run: the parameters are in the bounds of R7, memory is in its canonical form, `cyc` is a
position in the batch (R33), dirty is 0 between cycles (R31), a fault record explains the state (R206), and a core that
waits for the loader is in its reset state (R230; the stack entries in it are the model's choice, log 12). -/
structure State.Inv (s : State) : Prop where
  cfgValid : s.cfg.Valid
  memWf : Memory.wf s.cfg s.mem = true
  cycInBatch : s.cyc < s.cfg.cyclesPerTick
  notDirty : s.dirty = false
  haltExplained : ∀ r, s.halt = some r → r.Explains s
  waitsInReset : s.loaded = false → s = State.resetFor s.cfg s.inputs

/-- A run is safe so far if its state keeps the invariant and no fault has been raised: "a model takes
`halt = none` as a premise of every claim about results" (R206). -/
def State.Safe (s : State) : Prop := s.Inv ∧ s.halt = none

end Sys2Proof.Machine
end

