-- ==== Sys2Proof/Certificates/Slice0/Obligations.lean ====
section
/-! DEFINITION. The statements for the provers.  Each docstring names the rule of spec/ it formalises, and the
decisions D<n> of spec/92_eei_decisions.md that the rule itself rests on.  The hexadecimal digits of every encoding
are the spec's decision D2 (log 16). -/

section

open Sys2Proof Sys2Proof.Machine Host

namespace Sys2Proof.Stmt

/-- The number `w`, read as an instruction word, spells `i` (R75, R76). -/
def Spells (w : Nat) (i : Instr) : Prop := decodeWord (BitVec.ofNat 16 w) = some i

/-- The general registers an instruction may write (the last five rows of R23's table). -/
def MayWrite : Instr → Reg → Prop
  | .loadImm x _, r | .addImm x _, r | .loadReg x _, r | .orReg x _, r | .andReg x _, r | .xorReg x _, r
  | .readDelay x, r | .waitKey x, r | .randomAnd x _, r => r = x
  | .addReg x _, r | .subReg x _, r | .shiftRight x _, r | .subRegReverse x _, r | .shiftLeft x _, r =>
    r = x ∨ r = 15
  | .addIndex _, r | .drawSprite _ _ _, r => r = 15
  | .loadRegs x, r => r ≤ x
  | _, _ => False

/-- Some set bit of the sprite falls on the cell in column `px` and row `py`: the sprite starts in column `x0` and row
`y0` and has `n` rows, whose bytes lie from address I; bit 7 of a byte is its leftmost column (R185, R187).  Under
clip (and fault) a pixel addresses the cell at its own coordinates and no other, so one off the grid addresses none;
under wrap it addresses the cell at its coordinates mod 64 and mod 32; under replicate the cell of the same linear
index 64 py + px (R186, log 19). -/
def DrawsOn (s : State) (x0 y0 n : Nat) (px : Fin 64) (py : Fin 32) : Prop :=
  ∃ row < n, ∃ col < 8, (s.readByte (effAddr s.idx row)).getLsbD (7 - col) = true ∧
    match s.cfg.drawEdge with
    | .clip | .fault => x0 + col = px.val ∧ y0 + row = py.val
    | .wrap => (x0 + col) % 64 = px.val ∧ (y0 + row) % 32 = py.val
    | .replicate => 64 * (y0 + row) + (x0 + col) = 64 * py.val + px.val

/-- Some set bit of that sprite falls where the policy lets no sprite fall: off the grid under the policy fault, past
the last cell of the row-major buffer under replicate; never under clip or wrap (R7, R186, log 19). -/
abbrev DrawsOutside (s : State) (x0 y0 n : Nat) : Prop :=
  ∃ row < n, ∃ col < 8, (s.readByte (effAddr s.idx row)).getLsbD (7 - col) = true ∧
    ((s.cfg.drawEdge = .fault ∧ (63 < x0 + col ∨ 31 < y0 + row)) ∨
      (s.cfg.drawEdge = .replicate ∧ 2048 ≤ 64 * (y0 + row) + (x0 + col)))

/-- The instruction is a draw that overruns the display buffer under the policy replicate, the one effect of an
instruction that the spec gives no meaning (R186, log 19).  This hardware's policy is clip, and it has none. -/
def Overruns (i : Instr) (s : State) : Prop :=
  s.cfg.drawEdge = .replicate ∧
    ∃ x y n, i = .drawSprite x y n ∧ DrawsOutside s s.v[x].toNat s.v[y].toNat n

/-- pc after an instruction executed in the state `s` of the execute phase, where `ia = pc - 2` (R26; a draw
that faults, under the policy fault, log 19). -/
def pcAfter (i : Instr) (s : State) : Addr :=
  match i with
  | .jump nnn => nnn
  | .call nnn => if s.sp.val = 16 then s.pc - 2 else nnn
  | .jumpIndexed nnn => BitVec.ofNat 12 (nnn.toNat + s.v[0].toNat)
  | .ret => if h : s.sp.val = 0 then s.pc - 2 else s.stack[s.sp.val - 1]'(by omega) + 2
  | .skipEqImm x kk => if s.v[x] = kk then s.pc + 2 else s.pc
  | .skipNeqImm x kk => if s.v[x] = kk then s.pc else s.pc + 2
  | .skipEqReg x y _ => if s.v[x] = s.v[y] then s.pc + 2 else s.pc
  | .skipNeqReg x y _ => if s.v[x] = s.v[y] then s.pc else s.pc + 2
  | .skipKey x => if s.keys[s.v[x].toNat % 16]'(by omega) then s.pc + 2 else s.pc
  | .skipNokey x => if s.keys[s.v[x].toNat % 16]'(by omega) then s.pc else s.pc + 2
  | .waitKey _ => if ∃ k : Key, s.keys[k] = true then s.pc else s.pc - 2
  | .drawSprite x y n => if DrawsOutside s s.v[x].toNat s.v[y].toNat n then s.pc - 2 else s.pc
  | _ => s.pc

/-- DT as an instruction leaves it, before any tick (R27: written by set-delay). -/
def delayAfter (i : Instr) (s : State) : Byte :=
  match i with
  | .setDelay x => s.v[x]
  | _ => s.dt

/-- ST as an instruction leaves it, before any tick (R27: written by set-sound). -/
def soundAfter (i : Instr) (s : State) : Byte :=
  match i with
  | .setSound x => s.v[x]
  | _ => s.st

/-- The reset values R36 gives, for the parameters the state holds.  Nothing is said of what R36 leaves unspecified, the
other bytes of memory and the entries of the stack. -/
def HoldsResetValues (s : State) : Prop :=
  (∀ r : Reg, s.v[r] = 0) ∧ (∀ k : Key, s.keys[k] = false) ∧
  (∀ (y : Fin 32) (x : Fin 64), s.disp[y][x] = false) ∧
  (∀ a : Addr, a.toNat < 0x50 → s.cfg.font[a.toNat]? = some (s.readByte a)) ∧
  (∀ a : Addr, 0x200 ≤ a.toNat → a.toNat < s.cfg.stackLow → s.readByte a = 0) ∧
  s.pc = 0x200 ∧ s.idx = 0 ∧ s.sp.val = 0 ∧ s.dt = 0 ∧ s.st = 0 ∧ s.dirty = false ∧ s.cyc = 0 ∧ s.halt = none

/-- The byte `b` stands at `a` after store-regs Vx in the state `s` (R161): V[k] if `a` is the address of the k-th
transfer, the old byte if it is none of them. -/
def AfterStoreRegs (s : State) (x : Reg) (a : Addr) (b : Byte) : Prop :=
  (∀ k : Reg, k ≤ x → a = effAddr s.idx k.val → b = s.v[k]) ∧
  ((∀ k : Reg, k ≤ x → a ≠ effAddr s.idx k.val) → b = s.readByte a)

/-- The byte `b` stands at `a` after store-bcd Vx in the state `s` (R160): a digit of V[x] if `a` is I, I + 1 or
I + 2, else the old byte. -/
def AfterStoreBcd (s : State) (x : Reg) (a : Addr) (b : Byte) : Prop :=
  (a = effAddr s.idx 0 → b = BitVec.ofNat 8 (s.v[x].toNat / 100)) ∧
  (a = effAddr s.idx 1 → b = BitVec.ofNat 8 (s.v[x].toNat / 10 % 10)) ∧
  (a = effAddr s.idx 2 → b = (s.cfg.bcdOnes[s.v[x].toNat]?).getD (BitVec.ofNat 8 (s.v[x].toNat % 10))) ∧
  ((∀ k < 3, a ≠ effAddr s.idx k) → b = s.readByte a)

end Sys2Proof.Stmt

open Sys2Proof.Stmt

/-! ## Decoding and encoding -/

/-- Words written out from the spec's encodings, one or more of each family, decode as
spec/95_test_vectors.md 2.1 says. -/
def Obligations.SampleWordsDecodeAsTheSpecLists : Prop :=
  Spells 0x00E0 .clearScreen ∧ Spells 0x00EE .ret ∧ Spells 0x2ABC (.call 0xABC) ∧
  Spells 0x3A7F (.skipEqImm 0xA 0x7F) ∧ Spells 0x512F (.skipEqReg 1 2 0xF) ∧ Spells 0xE3A1 (.skipNokey 3) ∧
  Spells 0x6A2C (.loadImm 0xA 0x2C) ∧ Spells 0x8AB5 (.subReg 0xA 0xB) ∧ Spells 0x8AFE (.shiftLeft 0xA 0xF) ∧
  Spells 0xA123 (.loadIndex 0x123) ∧ Spells 0xF31E (.addIndex 3) ∧
  Spells 0xF333 (.storeBcd 3) ∧ Spells 0xF355 (.storeRegs 3) ∧ Spells 0xF30A (.waitKey 3) ∧
  Spells 0xC1F0 (.randomAnd 1 0xF0) ∧ Spells 0xD120 (.drawSprite 1 2 0) ∧
  decodeWord 0x01E0 = none ∧ decodeWord 0x8AB8 = none ∧ decodeWord 0xE09F = none ∧ decodeWord 0xF0FF = none

/-- Decode and encode agree, for every well-formed instruction and whatever bytes follow it (R72, R73, R75). -/
def Obligations.DecodingAnEncodedInstructionGivesItBack : Prop :=
  ∀ (i : Instr) (rest : List Byte), i.WellFormed →
    decodeWord (encode i) = some i ∧ decodeBytes (encodeBytes i ++ rest) = .instr i rest

/-- Every word that decodes is encoded back as it was: no bit of a word is dropped, the ignored nibbles of R78
included; and what the decoder gives is well formed. -/
def Obligations.EncodingADecodedWordGivesItBack : Prop :=
  ∀ (w : Word) (i : Instr), decodeWord w = some i → encode i = w ∧ i.WellFormed

/-- R75: a word spells an instruction iff it matches the instruction's mask and match; so no two rows match the
same word (the spec's D2, D3). -/
def Obligations.AWordSpellsAnInstructionIffItMatchesItsRow : Prop :=
  ∀ (w : Word) (i : Instr),
    w &&& i.row.mask = i.row.pattern ↔ ∃ j, decodeWord w = some j ∧ j.mnemonic = i.mnemonic

/-- R80: the unknown words are exactly those listed, and fetching one raises UnknownInstruction before any state
changes (R201): the state is that before the fetch, with the record (R206; pc back at the word is the spec's D23,
group 0x0 matched on the whole word its D3).  That the fault is a next state is the model's form of it (log 1). -/
def Obligations.UnknownWordsAreExactlyTheListedOnesAndFault : Prop :=
  (∀ w : Word, decodeWord w = none ↔
    (w.toNat / 4096 = 0 ∧ w ≠ 0x00E0 ∧ w ≠ 0x00EE) ∨
    (w.toNat / 4096 = 8 ∧ w.toNat % 16 ∈ [8, 9, 0xA, 0xB, 0xC, 0xD, 0xF]) ∨
    (w.toNat / 4096 = 0xE ∧ w.toNat % 256 ∉ [0x9E, 0xA1]) ∨
    (w.toNat / 4096 = 0xF ∧ w.toNat % 256 ∉ [0x07, 0x0A, 0x15, 0x18, 0x1E, 0x29, 0x33, 0x55, 0x65])) ∧
  (∀ s : State, s.halt = none → s.loaded = true → decodeWord s.fetchWord = none →
    step s = .next { s.beginCycle with halt := some ⟨.unknownInstruction, s.pc, s.fetchWord⟩ })

/-! ## The step -/

/-- A step runs the instruction that the two bytes at pc spell, big-endian, at any pc, the byte after 0xFFF being
0x000 (R54, R56, R91, R92): `exec` of it on the state whose keys are refreshed at the start of a batch and whose
pc is 2 further, then the end of the cycle (R90, R95).  The core has been loaded (R232, log 11). -/
def Obligations.AStepRunsTheInstructionAtPc : Prop :=
  ∀ (s : State) (i : Instr), s.halt = none → s.loaded = true →
    decodeWord (wordOfBytes (s.readByte s.pc) (s.readByte (BitVec.ofNat 12 (s.pc.toNat + 1)))) = some i →
    step s = match exec i { s.beginCycle with pc := BitVec.ofNat 12 (s.pc.toNat + 2) } with
      | .next t => .next t.endCycle
      | .fault r => .fault r
      | .refused r => .refused r

/-- A halted core performs no step, however often it is stepped: each step answers the record and nothing else
(R97, R216; that the stop is the fault `halted` is the model's form of it, log 1). -/
def Obligations.AHaltedCoreStaysStopped : Prop :=
  ∀ (s : State) (r : FaultRecord) (k : Nat), s.halt = some r →
    Core.run core (k + 1) s = .fault (.halted r)

/-- R205: nothing stops an instruction: every instruction answers a next state in every state, and a loaded core that
runs always takes a step (a fault is a next state, log 1).  The one exception lies outside this hardware, whose policy is
clip: a draw that overruns the buffer under the policy replicate, which "has no defined meaning" (log 19). -/
def Obligations.EveryInstructionAndEveryRunningStepCompletes : Prop :=
  (∀ (i : Instr) (s : State), s.cfg.drawEdge ≠ .replicate ∨ ¬ Overruns i s → ∃ t, exec i s = .next t) ∧
  (∀ s : State, s.halt = none → s.loaded = true →
    s.cfg.drawEdge ≠ .replicate ∨ (∀ i, decodeWord s.fetchWord = some i → ¬ Overruns i s) →
    ∃ t, step s = .next t)

/-- R200 to R203, R205, R206: a step of a running core raises a fault exactly in three cases, and then the new
state is the state at the fetch (its keys refreshed at the start of a batch, R210) plus the record of cause,
address and word (the spec's D23).  The cause codes are 1, 2, 3.  That a fault is a next state is the model's form of
it (log 1).  The fourth cause exists under the policy fault alone, which this hardware has not; R200 gives it no code
(log 19). -/
def Obligations.FaultsArePreciseAndOfExactlyThreeCauses : Prop :=
  (FaultCause.unknownInstruction.code = 1 ∧ FaultCause.stackOverflow.code = 2 ∧ FaultCause.stackUnderflow.code = 3) ∧
  ∀ (s t : State), s.halt = none → step s = .next t →
    (∀ r, t.halt = some r → r.ia = s.pc ∧ r.ir = s.fetchWord ∧ t = { s.beginCycle with halt := some r }) ∧
    (∀ c : FaultCause, (∃ a w, t.halt = some ⟨c, a, w⟩) ↔
      match c with
      | .unknownInstruction => decodeWord s.fetchWord = none
      | .stackOverflow => s.sp.val = 16 ∧ ∃ nnn, decodeWord s.fetchWord = some (.call nnn)
      | .stackUnderflow => s.sp.val = 0 ∧ decodeWord s.fetchWord = some .ret
      | .spriteOffGrid => s.cfg.drawEdge = .fault ∧ ∃ x y n, decodeWord s.fetchWord = some (.drawSprite x y n) ∧
          DrawsOutside s s.v[x].toNat s.v[y].toNat n)

/-- R96, R30: the keys are refreshed at the first cycle of a batch and at no other time.  That the
source is a list of vectors, of which a refresh takes the first one where there is one and no other step takes any, is the
model's form of it (log 6). -/
def Obligations.KeysAreRefreshedExactlyAtTheStartOfABatch : Prop :=
  ∀ (s t : State), step s = .next t →
    (s.cyc ≠ 0 → t.keys = s.keys ∧ t.inputs.keyVectors = s.inputs.keyVectors) ∧
    (s.cyc = 0 → ∀ v rest, s.inputs.keyVectors = v :: rest → t.keys = v ∧ t.inputs.keyVectors = rest)

/-- R98: a cycle whose instruction is clear-screen or draw-sprite ends with one hand-off of the display as it is
after the instruction; no other cycle hands it off, nor does a draw that
faults (under the policy fault alone, log 19); dirty is 0 afterwards.  (Before a cycle dirty is 0, R31;
clear-screen's part is the spec's D15; that the event is a field of the state is the model's choice, log 10.) -/
def Obligations.TheDisplayIsHandedOffExactlyAfterDrawAndClear : Prop :=
  ∀ (s t : State) (i : Instr), s.halt = none → s.dirty = false → step s = .next t →
    decodeWord s.fetchWord = some i →
    t.dirty = false ∧
    t.outputs.render = match i with
      | .clearScreen => some t.disp
      | .drawSprite _ _ _ => if t.halt = none then some t.disp else none
      | _ => none

/-- R95, R211, R212: a cycle that does not fault counts 1; the N-th of a batch ends with the tick: both timers, as
the instruction left them, count down by one with a floor of zero, and the cue is raised iff ST was 1; any other
cycle leaves the timers as the instruction left them and raises no cue.  A cycle that faults neither counts nor
ticks.  (That the cue is a field of the state is the model's choice, log 10.) -/
def Obligations.CyclesAreCountedAndTheNthTicks : Prop :=
  ∀ (s t : State) (i : Instr), s.halt = none → step s = .next t → decodeWord s.fetchWord = some i →
    (t.halt = none → s.cyc + 1 = s.cfg.cyclesPerTick →
      t.cyc = 0 ∧ t.dt.toNat = (delayAfter i s).toNat - 1 ∧ t.st.toNat = (soundAfter i s).toNat - 1 ∧
      (t.outputs.cue = true ↔ soundAfter i s = 1)) ∧
    (t.halt = none → s.cyc + 1 ≠ s.cfg.cyclesPerTick →
      t.cyc = s.cyc + 1 ∧ t.dt = delayAfter i s ∧ t.st = soundAfter i s ∧ t.outputs.cue = false) ∧
    (t.halt ≠ none → t.cyc = s.cyc ∧ t.dt = s.dt ∧ t.st = s.st ∧ t.outputs.cue = false)

/-- R94: "the timers lose exactly 1 per N cycles executed".  After k cycles without a fault, in which no set-delay
runs, the delay timer has lost one for every batch end passed, down to 0, and the position in the batch has moved
by k mod N. -/
def Obligations.TheDelayTimerLosesOnePerBatchOfCycles : Prop :=
  ∀ (k : Nat) (s t : State), s.cyc < s.cfg.cyclesPerTick →
    Core.run core k s = .next t → t.halt = none →
    (∀ (j : Nat) (u : State) (x : Reg), j < k → Core.run core j s = .next u →
      decodeWord u.fetchWord ≠ some (.setDelay x)) →
    t.cyc = (s.cyc + k) % s.cfg.cyclesPerTick ∧
    t.dt.toNat = s.dt.toNat - (s.cyc + k) / s.cfg.cyclesPerTick

/-- R171 (a): inside a batch the latch cannot change, so a wait-key that finds no key retries for the rest of the batch,
and each retry counts toward the tick: after k + 1 cycles that do not end the batch only `cyc` has moved since the first
of them refreshed the latch, if it was the first of the batch; the one that ends the batch, the N-th, retries too (pc
stays), and ends with the tick: both timers count down, the cue is raised iff ST was 1, and `cyc` is 0. -/
def Obligations.AWaitingCoreRetriesForTheRestOfTheBatch : Prop :=
  ∀ (s : State) (x : Reg) (k : Nat), s.halt = none → s.loaded = true → s.dirty = false →
    decodeWord s.fetchWord = some (.waitKey x) → (∀ j : Key, s.beginCycle.keys[j] = false) →
    (s.cyc + (k + 1) < s.cfg.cyclesPerTick →
      Core.run core (k + 1) s = .next { s.beginCycle with cyc := s.cyc + (k + 1) }) ∧
    (s.cyc + (k + 1) = s.cfg.cyclesPerTick →
      ∃ t, Core.run core (k + 1) s = .next t ∧ t.pc = s.pc ∧ t.cyc = 0 ∧
        t.dt.toNat = s.dt.toNat - 1 ∧ t.st.toNat = s.st.toNat - 1 ∧
        t.outputs.render = none ∧ (t.outputs.cue = true ↔ s.st = 1) ∧
        t = { s.beginCycle with dt := t.dt, st := t.st, cyc := 0, outputs := t.outputs })

/-- R101: a core parked in a jump to its own address runs for ever; the timers count down, the keys are refreshed, and no
other state changes (the ports and `cyc` apart). -/
def Obligations.AParkedCoreRunsForEver : Prop :=
  ∀ (s : State) (k : Nat), s.halt = none → s.loaded = true → s.dirty = false →
    decodeWord s.fetchWord = some (.jump s.pc) →
    ∃ t, Core.run core k s = .next t ∧ t.dt.toNat ≤ s.dt.toNat ∧ t.st.toNat ≤ s.st.toNat ∧
      t = { s with dt := t.dt, st := t.st, cyc := t.cyc, keys := t.keys, inputs := t.inputs, outputs := t.outputs }

/-! ## Reset, launch, invariant -/

/-- R36: the reset values the rule gives, for every choice of the parameters within the bounds of R7; the font is the
parameter FONT_TABLE, by default that of R59 (the spec's D22), glyph g at 5 g, its five bytes written here as one
number; I, sp, the timers, dirty and cyc are the spec's D20. -/
def Obligations.ResetGivesTheStatedValues : Prop :=
  (∀ (g : Fin 16) (k : Fin 5), Config.default.font[5 * g.val + k.val]? = some
    (BitVec.ofNat 8 (([0xF0909090F0, 0x2060202070, 0xF010F080F0, 0xF010F010F0, 0x9090F01010, 0xF080F010F0,
      0xF080F090F0, 0xF010204040, 0xF090F090F0, 0xF090F010F0, 0xF090F09090, 0xE090E090E0, 0xF0808080F0,
      0xE0909090E0, 0xF080F080F0, 0xF080F08080][g.val]'(by simp)) / 256 ^ (4 - k.val)))) ∧
  ∀ (c : Config) (p : Inputs), c.Valid →
    (State.resetFor c p).cfg = c ∧ HoldsResetValues (State.resetFor c p)

/-- R230: reset, asserted in any state, running or halted: every piece of state takes its value of R36, the fault record
is cleared, the core waits for the loader, and nothing of the old state but the parameters (of the next launch) and the
host's sources survives (that these stay is the model's choice, log 14; the launch number is log 5, the waiting is a field of
the model, log 11).  That two reset states are equal in full is the model's choice where R36 leaves a value unspecified:
the entries of the stack (0, log 12), and the bytes of memory that it fixes by the launch number (log 5). -/
def Obligations.ResetDiscardsEveryState : Prop :=
  ∀ (s t : State), s.cfg.Valid → s.cfg = t.cfg → s.inputs = t.inputs →
    HoldsResetValues s.assertReset ∧ s.assertReset.loaded = false ∧
    s.assertReset.cfg = { s.cfg with launch := s.cfg.launch + 1 } ∧ s.assertReset.inputs = s.inputs ∧
    s.assertReset = t.assertReset

/-- The state after reset meets the invariant, for every choice of parameters within the bounds of R7, and so does
`State.reset`.  (The invariant's reset state of a core that waits holds the model's choice of the stack entries, log 12.) -/
def Obligations.ResetMeetsTheInvariant : Prop :=
  (∀ (c : Config) (p : Inputs), c.Valid → (State.resetFor c p).Inv) ∧ State.reset.Inv

/-- Every step keeps the invariant: the parameters stay in the bounds of R7, memory in its canonical form, `cyc` in
0 .. N-1 (R33), dirty 0 between cycles (R31), a fault record explains the state it stands in (R206), and a core that
waits for the loader is in its reset state (R230, with the model's choice of the stack entries, log 12). -/
def Obligations.EveryStepKeepsTheInvariant : Prop :=
  ∀ (s t : State), s.Inv → step s = .next t → t.Inv

/-- No step changes the launch parameters (R35: they are not state). -/
def Obligations.NoStepChangesTheParameters : Prop :=
  ∀ (s t : State), step s = .next t → t.cfg = s.cfg

/-- R100, R204: on a core that waits for it, a ROM of 1 to ROM_CAPACITY bytes is copied to 0x200 upward, the core may
start (R230), nothing else changes, and the invariant is kept; an empty ROM is LoaderFailure (code 4); an over-long one is
refused.  The loader moves once: on a core that was loaded it is refused (R214, R99).  (That these are a fault and two
refusals of the load operation is the model's form of them, log 15; the mark `loaded` is log 11.) -/
def Obligations.TheLoaderDepositsTheRomAt0x200 : Prop :=
  ∀ (s : State) (rom : List Byte), s.cfg.Valid →
    (s.loaded = false →
      (rom ≠ [] → 0x200 + rom.length ≤ s.cfg.stackLow → ∃ t, s.load rom = .next t ∧
        t = { s with mem := t.mem, loaded := true } ∧
        (∀ (k : Nat) (h : k < rom.length), t.readByte (BitVec.ofNat 12 (0x200 + k)) = rom[k]) ∧
        (∀ a : Addr, a.toNat < 0x200 ∨ 0x200 + rom.length ≤ a.toNat → t.readByte a = s.readByte a) ∧
        (s.Inv → t.Inv)) ∧
      (rom = [] → s.load rom = .fault .loaderFailure ∧ Fault.loaderFailure.code = some 4) ∧
      (s.cfg.stackLow < 0x200 + rom.length → s.load rom = .refused .romTooLarge)) ∧
    (s.loaded = true → s.load rom = .refused .loadAfterStart)

/-! ## Control -/

/-- R110, "zero the Display Buffer" and `dirty <- 1`: clear-screen turns every cell off and sets dirty (the spec's D15);
nothing else changes.  The hand-off that dirty causes is that of the step, in a statement of its own. -/
def Obligations.ClearScreenBlanksTheDisplay : Prop :=
  Spells 0x00E0 .clearScreen ∧
  ∀ s : State, ∃ t, exec .clearScreen s = .next t ∧ (∀ (y : Fin 32) (x : Fin 64), t.disp[y][x] = false) ∧
    t = { s with disp := t.disp, dirty := true }

/-- R111: return pops the most recent entry and goes to it plus 2; the entry keeps its bits.  On an empty stack it
raises StackUnderflow, and nothing changes but the fault record and pc, back at the instruction (R203, R206, the spec's
D23; that the fault is a next state is the model's form of it, log 1). -/
def Obligations.ReturnPopsAndResumesAfterTheCall : Prop :=
  Spells 0x00EE .ret ∧
  ∀ s : State,
    (∀ k : Fin 16, s.sp.val = k.val + 1 →
      exec .ret s = .next { s with sp := k.castSucc, pc := BitVec.ofNat 12 (s.stack[k].toNat + 2) }) ∧
    (s.sp.val = 0 →
      exec .ret s = .next { s with pc := s.pc - 2, halt := some ⟨.stackUnderflow, s.pc - 2, 0x00EE⟩ })

/-- R113: call pushes `ia`, the call's own address (pc - 2 in the execute phase), and goes to nnn.  With 16 entries
in use it raises StackOverflow, and nothing changes but the fault record and pc, back at the instruction (R202, R206, the
spec's D23; that the fault is a next state is the model's form of it, log 1, and the word of the record is recovered by
encoding, log 13). -/
def Obligations.CallPushesItsOwnAddress : Prop :=
  ∀ (s : State) (nnn : Addr),
    Spells (0x2000 + nnn.toNat) (.call nnn) ∧
    (∀ k : Fin 16, s.sp.val = k.val →
      exec (.call nnn) s = .next { s with stack := s.stack.set k (s.pc - 2), sp := k.succ, pc := nnn }) ∧
    (s.sp.val = 16 →
      exec (.call nnn) s = .next { s with
        pc := s.pc - 2
        halt := some ⟨.stackOverflow, s.pc - 2, BitVec.ofNat 16 (0x2000 + nnn.toNat)⟩ })

/-- R112, R120: jump goes to nnn, jump-indexed to (nnn + V[0]) mod 4096; nothing else changes. -/
def Obligations.JumpsGoToTheirTarget : Prop :=
  ∀ (s : State) (nnn : Addr),
    Spells (0x1000 + nnn.toNat) (.jump nnn) ∧ Spells (0xB000 + nnn.toNat) (.jumpIndexed nnn) ∧
    exec (.jump nnn) s = .next { s with pc := nnn } ∧
    exec (.jumpIndexed nnn) s = .next { s with pc := BitVec.ofNat 12 (nnn.toNat + s.v[0].toNat) }

/-- R114 to R117, R78: the four comparing skips advance pc by 2 more if their condition holds; nothing else
changes, and the ignored low nibble of the register forms plays no part. -/
def Obligations.ComparingSkipsAdvancePcByTwoMore : Prop :=
  ∀ (s : State) (x y : Reg) (kk : Byte) (g : BitVec 4),
    Spells (0x3000 + 0x100 * x.val + kk.toNat) (.skipEqImm x kk) ∧
    Spells (0x4000 + 0x100 * x.val + kk.toNat) (.skipNeqImm x kk) ∧
    Spells (0x5000 + 0x100 * x.val + 0x10 * y.val + g.toNat) (.skipEqReg x y g) ∧
    Spells (0x9000 + 0x100 * x.val + 0x10 * y.val + g.toNat) (.skipNeqReg x y g) ∧
    exec (.skipEqImm x kk) s = .next { s with pc := if s.v[x] = kk then s.pc + 2 else s.pc } ∧
    exec (.skipNeqImm x kk) s = .next { s with pc := if s.v[x] ≠ kk then s.pc + 2 else s.pc } ∧
    exec (.skipEqReg x y g) s = .next { s with pc := if s.v[x] = s.v[y] then s.pc + 2 else s.pc } ∧
    exec (.skipNeqReg x y g) s = .next { s with pc := if s.v[x] ≠ s.v[y] then s.pc + 2 else s.pc }

/-- R118, R119, R122: skip-key and skip-nokey test the latched key V[x] mod 16 (the spec's D16). -/
def Obligations.KeySkipsTestTheLatchedKeyOfTheLowFourBits : Prop :=
  ∀ (s : State) (x : Reg),
    Spells (0xE09E + 0x100 * x.val) (.skipKey x) ∧ Spells (0xE0A1 + 0x100 * x.val) (.skipNokey x) ∧
    ∀ k : Key, k.val = s.v[x].toNat % 16 →
      exec (.skipKey x) s = .next { s with pc := if s.keys[k] = true then s.pc + 2 else s.pc } ∧
      exec (.skipNokey x) s = .next { s with pc := if s.keys[k] = false then s.pc + 2 else s.pc }

/-- R26: how each instruction leaves pc. -/
def Obligations.PcAfterEachInstruction : Prop :=
  ∀ (i : Instr) (s t : State), exec i s = .next t → t.pc = pcAfter i s

/-! ## ALU -/

/-- R130, R131, R132: load-imm, add-imm (mod 256, no flag) and load-reg write V[x] and nothing else. -/
def Obligations.LoadsAndAddImmediateWriteVx : Prop :=
  ∀ (s : State) (x y : Reg) (kk : Byte),
    Spells (0x6000 + 0x100 * x.val + kk.toNat) (.loadImm x kk) ∧
    Spells (0x7000 + 0x100 * x.val + kk.toNat) (.addImm x kk) ∧
    Spells (0x8000 + 0x100 * x.val + 0x10 * y.val) (.loadReg x y) ∧
    exec (.loadImm x kk) s = .next { s with v := s.v.set x kk } ∧
    exec (.addImm x kk) s = .next { s with v := s.v.set x (BitVec.ofNat 8 (s.v[x].toNat + kk.toNat)) } ∧
    exec (.loadReg x y) s = .next { s with v := s.v.set x s.v[y] }

/-- R133, R134, R135: or, and, xor work bit by bit on V[x] and V[y] and write V[x] and nothing else: the flag is not
touched. -/
def Obligations.LogicOperationsWorkBitByBitWithoutFlag : Prop :=
  ∀ (s : State) (x y : Reg),
    Spells (0x8001 + 0x100 * x.val + 0x10 * y.val) (.orReg x y) ∧
    Spells (0x8002 + 0x100 * x.val + 0x10 * y.val) (.andReg x y) ∧
    Spells (0x8003 + 0x100 * x.val + 0x10 * y.val) (.xorReg x y) ∧
    (∃ r : Byte, exec (.orReg x y) s = .next { s with v := s.v.set x r } ∧
      ∀ j < 8, r.getLsbD j = (s.v[x].getLsbD j || s.v[y].getLsbD j)) ∧
    (∃ r : Byte, exec (.andReg x y) s = .next { s with v := s.v.set x r } ∧
      ∀ j < 8, r.getLsbD j = (s.v[x].getLsbD j && s.v[y].getLsbD j)) ∧
    (∃ r : Byte, exec (.xorReg x y) s = .next { s with v := s.v.set x r } ∧
      ∀ j < 8, r.getLsbD j = (s.v[x].getLsbD j != s.v[y].getLsbD j))

/-- R136: add-reg writes the carry to V[15], then the sum mod 256 to V[x], both from the old values; so
with x = 15 V[15] holds the sum (the spec's D8). -/
def Obligations.AddRegWritesCarryThenSum : Prop :=
  ∀ (s : State) (x y : Reg),
    Spells (0x8004 + 0x100 * x.val + 0x10 * y.val) (.addReg x y) ∧
    exec (.addReg x y) s = .next { s with
      v := (s.v.set 15 (if s.v[x].toNat + s.v[y].toNat > 255 then 1 else 0)).set x
        (BitVec.ofNat 8 ((s.v[x].toNat + s.v[y].toNat) % 256)) }

/-- R137, R139: sub-reg and sub-reg-reverse write the not-borrow to V[15], then the difference mod 256 to V[x], both
from the old values (the spec's D8). -/
def Obligations.SubtractionsWriteNotBorrowThenDifference : Prop :=
  ∀ (s : State) (x y : Reg),
    Spells (0x8005 + 0x100 * x.val + 0x10 * y.val) (.subReg x y) ∧
    Spells (0x8007 + 0x100 * x.val + 0x10 * y.val) (.subRegReverse x y) ∧
    exec (.subReg x y) s = .next { s with
      v := (s.v.set 15 (if s.v[y].toNat > s.v[x].toNat then 0 else 1)).set x
        (BitVec.ofNat 8 ((256 + s.v[x].toNat - s.v[y].toNat) % 256)) } ∧
    exec (.subRegReverse x y) s = .next { s with
      v := (s.v.set 15 (if s.v[x].toNat > s.v[y].toNat then 0 else 1)).set x
        (BitVec.ofNat 8 ((256 + s.v[y].toNat - s.v[x].toNat) % 256)) }

/-- R138, R140: the shifts write the bit shifted out (0 or 1) to V[15], then V[x] div 2, or 2 V[x] mod 256, to V[x];
V[y] takes no part (the spec's D8, D9). -/
def Obligations.ShiftsWriteTheBitShiftedOutThenTheResult : Prop :=
  ∀ (s : State) (x : Reg) (g : BitVec 4),
    Spells (0x8006 + 0x100 * x.val + 0x10 * g.toNat) (.shiftRight x g) ∧
    Spells (0x800E + 0x100 * x.val + 0x10 * g.toNat) (.shiftLeft x g) ∧
    exec (.shiftRight x g) s = .next { s with
      v := (s.v.set 15 (BitVec.ofNat 8 (s.v[x].toNat % 2))).set x (BitVec.ofNat 8 (s.v[x].toNat / 2)) } ∧
    exec (.shiftLeft x g) s = .next { s with
      v := (s.v.set 15 (BitVec.ofNat 8 (s.v[x].toNat / 128))).set x (BitVec.ofNat 8 (2 * s.v[x].toNat % 256)) }

/-- R22, R141, R151, R190: a flag write stores 0x00 or 0x01.  In the five ALU instructions that write the flag this
is what V[15] holds afterwards unless x = 15, when the result overwrites it; add-index and draw-sprite leave the
flag there always (but for a draw that faults, under the policy fault alone, log 19). -/
def Obligations.FlagWritesStoreZeroOrOne : Prop :=
  ∀ (s t : State) (x y : Reg) (g : BitVec 4) (n : Nat),
    (∀ i ∈ [Instr.addReg x y, .subReg x y, .shiftRight x g, .subRegReverse x y, .shiftLeft x g],
      x ≠ 15 → exec i s = .next t → t.v[15] = 0 ∨ t.v[15] = 1) ∧
    (exec (.addIndex x) s = .next t → t.v[15] = 0 ∨ t.v[15] = 1) ∧
    (¬ DrawsOutside s s.v[x].toNat s.v[y].toNat n → exec (.drawSprite x y n) s = .next t →
      t.v[15] = 0 ∨ t.v[15] = 1)

/-! ## Index -/

/-- R150, R152: load-index zero-extends nnn into I, load-font-ptr puts 5 V[x] there, exact; nothing else changes. -/
def Obligations.LoadIndexAndFontPointerSetTheIndex : Prop :=
  ∀ (s : State) (x : Reg) (nnn : Addr),
    Spells (0xA000 + nnn.toNat) (.loadIndex nnn) ∧ Spells (0xF029 + 0x100 * x.val) (.loadFontPtr x) ∧
    (∃ t, exec (.loadIndex nnn) s = .next t ∧ t.idx.toNat = nnn.toNat ∧ t = { s with idx := t.idx }) ∧
    (∃ t, exec (.loadFontPtr x) s = .next t ∧ t.idx.toNat = 5 * s.v[x].toNat ∧ t = { s with idx := t.idx })

/-- R151: add-index leaves I + V[x] mod 65536 in I and the flag of the unreduced sum against 0x0FFF in V[15], both from
the old values; nothing else changes (the spec's D7, D8). -/
def Obligations.AddIndexKeepsSixteenBitsAndFlagsAboveTwelve : Prop :=
  ∀ (s : State) (x : Reg),
    Spells (0xF01E + 0x100 * x.val) (.addIndex x) ∧
    exec (.addIndex x) s = .next { s with
      v := s.v.set 15 (if s.idx.toNat + s.v[x].toNat > 0x0FFF then 1 else 0)
      idx := BitVec.ofNat 16 ((s.idx.toNat + s.v[x].toNat) % 65536) }

/-- R24: I changes in a step only if the instruction is load-index, add-index or load-font-ptr. -/
def Obligations.OnlyThreeInstructionsChangeTheIndex : Prop :=
  ∀ (s t : State), step s = .next t → t.idx ≠ s.idx →
    ∃ i, decodeWord s.fetchWord = some i ∧
      ((∃ nnn, i = .loadIndex nnn) ∨ (∃ x, i = .addIndex x) ∨ (∃ x, i = .loadFontPtr x))

/-! ## Memory -/

/-- R160: store-bcd writes the hundreds, tens and ones digits of V[x] at I, I + 1 and I + 2 (mod 4096); the ones digit
is BCD_ONES of V[x], whatever function that parameter is, v mod 10 by default; every other byte and everything else
is as before (the spec's D10). -/
def Obligations.StoreBcdWritesThreeDigits : Prop :=
  ∀ (s : State) (x : Reg),
    Spells (0xF033 + 0x100 * x.val) (.storeBcd x) ∧
    ∃ t, exec (.storeBcd x) s = .next t ∧ t = { s with mem := t.mem } ∧
      t.readByte (effAddr s.idx 0) = BitVec.ofNat 8 (s.v[x].toNat / 100) ∧
      t.readByte (effAddr s.idx 1) = BitVec.ofNat 8 (s.v[x].toNat / 10 % 10) ∧
      (∀ b, s.cfg.bcdOnes[s.v[x].toNat]? = some b → t.readByte (effAddr s.idx 2) = b) ∧
      (s.cfg.bcdOnes[s.v[x].toNat]? = none →
        t.readByte (effAddr s.idx 2) = BitVec.ofNat 8 (s.v[x].toNat % 10)) ∧
      ∀ a : Addr, (∀ k < 3, a ≠ effAddr s.idx k) → t.readByte a = s.readByte a

/-- R161: store-regs writes V[0] .. V[x] at I, I + 1, ..., I + x (mod 4096); every other byte and everything else, I
included (the spec's D27), is as before. -/
def Obligations.StoreRegsWritesTheBlock : Prop :=
  ∀ (s : State) (x : Reg),
    Spells (0xF055 + 0x100 * x.val) (.storeRegs x) ∧
    ∃ t, exec (.storeRegs x) s = .next t ∧ t = { s with mem := t.mem } ∧
      (∀ k : Reg, k ≤ x → t.readByte (effAddr s.idx k.val) = s.v[k]) ∧
      ∀ a : Addr, (∀ k : Reg, k ≤ x → a ≠ effAddr s.idx k.val) → t.readByte a = s.readByte a

/-- R162: load-regs reads V[0] .. V[x] from I, I + 1, ..., I + x (mod 4096); the registers above V[x] and everything else,
I included (the spec's D27), are as before. -/
def Obligations.LoadRegsReadsTheBlock : Prop :=
  ∀ (s : State) (x : Reg),
    Spells (0xF065 + 0x100 * x.val) (.loadRegs x) ∧
    ∃ t, exec (.loadRegs x) s = .next t ∧ t = { s with v := t.v } ∧
      (∀ k : Reg, k ≤ x → t.v[k] = s.readByte (effAddr s.idx k.val)) ∧
      ∀ k : Reg, x < k → t.v[k] = s.v[k]

/-- The round-trip law of R162 (S4): store-regs, then load-regs with the same x and the same I, restores V[0] .. V[x],
whatever the registers hold in between. -/
def Obligations.StoreRegsThenLoadRegsRestoresTheRegisters : Prop :=
  ∀ (s t u : State) (x : Reg) (w : Vector Byte 16), exec (.storeRegs x) s = .next t →
    exec (.loadRegs x) { t with v := w } = .next u →
    (∀ k : Reg, k ≤ x → u.v[k] = s.v[k]) ∧ (∀ k : Reg, x < k → u.v[k] = w[k]) ∧ u.idx = s.idx

/-- R50, R34: in a step whose instruction is not store-bcd or store-regs every byte of memory reads as before. -/
def Obligations.OnlyTheTwoStoresChangeMemory : Prop :=
  ∀ (s t : State), step s = .next t →
    (∀ x, decodeWord s.fetchWord ≠ some (.storeBcd x)) → (∀ x, decodeWord s.fetchWord ≠ some (.storeRegs x)) →
    ∀ a : Addr, t.readByte a = s.readByte a

/-- R63: a store is seen by the next fetch.  After a step of store-regs or store-bcd the word fetched next is the one of
the two bytes behind the instruction as the store left them, whichever of them it hit: both, one, or none (R160, R161). -/
def Obligations.AStoreIsSeenByTheNextFetch : Prop :=
  ∀ (s t : State) (x : Reg), step s = .next t →
    (decodeWord s.fetchWord = some (.storeRegs x) →
      ∃ hi lo, t.fetchWord = wordOfBytes hi lo ∧
        AfterStoreRegs s x (s.pc + 2) hi ∧ AfterStoreRegs s x (s.pc + 3) lo) ∧
    (decodeWord s.fetchWord = some (.storeBcd x) →
      ∃ hi lo, t.fetchWord = wordOfBytes hi lo ∧
        AfterStoreBcd s x (s.pc + 2) hi ∧ AfterStoreBcd s x (s.pc + 3) lo)

/-! ## Timers, keys, random -/

/-- R170, "Vx := delay timer's current value", R172, "delay timer ... := Vx", R173, "... sound timer := Vx": read-delay
copies DT to V[x]; set-delay and set-sound copy V[x] to DT and to ST; nothing else changes. -/
def Obligations.TimerMovesCopyOneByte : Prop :=
  ∀ (s : State) (x : Reg),
    Spells (0xF007 + 0x100 * x.val) (.readDelay x) ∧ Spells (0xF015 + 0x100 * x.val) (.setDelay x) ∧
    Spells (0xF018 + 0x100 * x.val) (.setSound x) ∧
    exec (.readDelay x) s = .next { s with v := s.v.set x s.dt } ∧
    exec (.setDelay x) s = .next { s with dt := s.v[x] } ∧
    exec (.setSound x) s = .next { s with st := s.v[x] }

/-- R171: with no key pressed wait-key goes back to its own address and changes nothing else; with keys pressed V[x]
receives the number of a pressed key, whatever the choice WAITKEY_PICK makes, and nothing else of the core
changes.  The free choice is the spec's D17; that it is an input of the model, and that only a choice among several keys
uses one up, is the model's form of it (log 8). -/
def Obligations.WaitKeyRetriesOrDeliversAPressedKey : Prop :=
  ∀ (s : State) (x : Reg),
    Spells (0xF00A + 0x100 * x.val) (.waitKey x) ∧
    ((∀ k : Key, s.keys[k] = false) → exec (.waitKey x) s = .next { s with pc := s.pc - 2 }) ∧
    (∀ k : Key, s.keys[k] = true →
      (∃ (j : Key) (t : State), s.keys[j] = true ∧ exec (.waitKey x) s = .next t ∧
        t = { s with v := s.v.set x (BitVec.ofNat 8 j.val), inputs := t.inputs } ∧
        t.inputs.keyVectors = s.inputs.keyVectors ∧ t.inputs.randomBytes = s.inputs.randomBytes) ∧
      ((∀ j : Key, s.keys[j] = true → j = k) →
        exec (.waitKey x) s = .next { s with v := s.v.set x (BitVec.ofNat 8 k.val) }))

/-- R180: random-and puts the drawn byte AND kk into V[x]; whatever byte the random-byte input presents next is the
one drawn, exactly one is consumed, and where nothing is known of the input some byte is drawn; nothing else
changes (the spec's D24).  That the input is a list of bytes, whose first one is taken and removed, and a free value beyond
it, is the model's form of it (log 7). -/
def Obligations.RandomAndMasksTheDrawnByte : Prop :=
  ∀ (s : State) (x : Reg) (kk : Byte),
    Spells (0xC000 + 0x100 * x.val + kk.toNat) (.randomAnd x kk) ∧
    (∀ r rest, s.inputs.randomBytes = r :: rest →
      exec (.randomAnd x kk) s = .next { s with
        v := s.v.set x (r &&& kk)
        inputs := { s.inputs with randomBytes := rest } }) ∧
    (∃ (r : Byte) (t : State), exec (.randomAnd x kk) s = .next t ∧
      t = { s with v := s.v.set x (r &&& kk), inputs := t.inputs } ∧
      t.inputs.keyVectors = s.inputs.keyVectors ∧ t.inputs.picks = s.inputs.picks)

/-- R27: ST "cannot be read by any instruction": changing ST alone changes nothing in what an instruction does but ST
itself. -/
def Obligations.NoInstructionReadsTheSoundTimer : Prop :=
  ∀ (i : Instr) (s t : State) (b : Byte), exec i s = .next t →
    exec i { s with st := b } = .next { t with st := if ∃ x, i = .setSound x then t.st else b }

/-! ## Draw -/

/-- R185, R186, R187, R188, R190: draw-sprite inverts every cell on which a set bit of the sprite falls and leaves the
others; under the policy of this hardware, clip, pixels off the grid change nothing; V[15] is 1 iff some set bit falls
on a cell that was on, else 0; dirty is set; nothing else changes.  V[x], V[y] and I are those before the instruction,
x = 15 and y = 15 included.  (The spec's D11: clip; D12: bit order; D13: height 0; D14: latching.)  The clauses for the
policies this hardware does not have are the model's choice (log 19): under wrap and replicate pixels off the grid fall
on the cell mod 64 and mod 32 or on that of their linear index, as R186 describes them; the sprites that fault and
replicate do not let be drawn have a statement of their own. -/
def Obligations.DrawSpriteInvertsTheCellsItFallsOnAndReportsCollision : Prop :=
  ∀ (s : State) (x y : Reg) (n : Nat), n < 16 →
    Spells (0xD000 + 0x100 * x.val + 0x10 * y.val + n) (.drawSprite x y n) ∧
    (¬ DrawsOutside s s.v[x].toNat s.v[y].toNat n →
      ∃ (t : State) (f : Byte), exec (.drawSprite x y n) s = .next t ∧
        (∀ (py : Fin 32) (px : Fin 64),
          (DrawsOn s s.v[x].toNat s.v[y].toNat n px py → t.disp[py][px] = !s.disp[py][px]) ∧
          (¬ DrawsOn s s.v[x].toNat s.v[y].toNat n px py → t.disp[py][px] = s.disp[py][px])) ∧
        (f = 0 ∨ f = 1) ∧
        (f = 1 ↔ ∃ (py : Fin 32) (px : Fin 64),
          DrawsOn s s.v[x].toNat s.v[y].toNat n px py ∧ s.disp[py][px] = true) ∧
        t = { s with v := s.v.set 15 f, disp := t.disp, dirty := true })

/-- R189 (a): drawing the identical sprite at the identical position again restores the display, and the second draw
reports a collision exactly if the first turned some cell on (whatever the policy, if it lets the sprite be drawn,
log 19). -/
def Obligations.DrawingTwiceRestoresTheDisplay : Prop :=
  ∀ (s t t' u : State) (x y : Reg) (n : Nat), n < 16 → ¬ DrawsOutside s s.v[x].toNat s.v[y].toNat n →
    exec (.drawSprite x y n) s = .next t →
    t'.disp = t.disp → t'.idx = s.idx → t'.v[x] = s.v[x] → t'.v[y] = s.v[y] → t'.cfg.drawEdge = s.cfg.drawEdge →
    (∀ k < n, t'.readByte (effAddr s.idx k) = s.readByte (effAddr s.idx k)) →
    exec (.drawSprite x y n) t' = .next u →
    u.disp = s.disp ∧
    (u.v[15] = 1 ↔ ∃ (py : Fin 32) (px : Fin 64), s.disp[py][px] = false ∧ t.disp[py][px] = true)

/-- R29, R189 (b): the display changes in a step only if the instruction is draw-sprite or clear-screen. -/
def Obligations.OnlyDrawAndClearChangeTheDisplay : Prop :=
  ∀ (s t : State), step s = .next t → t.disp ≠ s.disp →
    decodeWord s.fetchWord = some .clearScreen ∨
    ∃ x y n, decodeWord s.fetchWord = some (.drawSprite x y n)

/-! ## Rules over all instructions -/

/-- R23, R22: the frame of the general registers: an instruction changes no register but those R23 lists for it; the
flag register is among them for the seven flag writers only. -/
def Obligations.RegistersChangeOnlyAsTheTableOfWritersSays : Prop :=
  ∀ (i : Instr) (s t : State) (r : Reg), exec i s = .next t → ¬ MayWrite i r → t.v[r] = s.v[r]

/-- R28: "Used only by subroutine-call and return opcodes": in a step whose instruction is neither, the stack and its
depth stay; and the depth changes by at most one entry in any step. -/
def Obligations.OnlyCallAndReturnTouchTheStack : Prop :=
  ∀ (s t : State), step s = .next t →
    ((∀ nnn, decodeWord s.fetchWord ≠ some (.call nnn)) → decodeWord s.fetchWord ≠ some .ret →
      t.stack = s.stack ∧ t.sp = s.sp) ∧
    t.sp.val ≤ s.sp.val + 1 ∧ s.sp.val ≤ t.sp.val + 1 ∧
    (∀ k : Fin 16, k.val < s.sp.val → t.stack[k] = s.stack[k])

/-- The scenario of R113 and R111 (S11): a step that runs call, and, after it, a step that runs return with the stack
as the call left it, resumes at the address after the call with the old depth. -/
def Obligations.ReturnAfterCallResumesBehindTheCall : Prop :=
  ∀ (s t t' u : State) (nnn : Addr), s.sp.val < 16 → s.halt = none →
    decodeWord s.fetchWord = some (.call nnn) → step s = .next t →
    t'.stack = t.stack → t'.sp = t.sp → t'.halt = none →
    decodeWord t'.fetchWord = some .ret → step t' = .next u →
    t.pc = nnn ∧ u.pc = s.pc + 2 ∧ u.sp = s.sp ∧ u.halt = none

/-! ## The core that waits, and the policies this hardware does not have -/

/-- R230, R232, R204: "the core waits for the loader before its first cycle", and without a ROM it never starts: after
reset, however often it is stepped, it performs no cycle; and the one thing that starts it is a load that succeeds.  (That
the waiting is a field, and the stop the fault `notStarted`, which has no code, is the model's form of it, log 11.) -/
def Obligations.AWaitingCoreNeverStarts : Prop :=
  (∀ (s : State) (k : Nat), s.halt = none → s.loaded = false → Core.run core (k + 1) s = .fault .notStarted) ∧
  (∀ (c : Config) (p : Inputs) (k : Nat), Core.run core (k + 1) (State.resetFor c p) = .fault .notStarted) ∧
  (∀ (s : State) (k : Nat), Core.run core (k + 1) s.assertReset = .fault .notStarted) ∧
  (∀ (s t : State), step s = .next t → s.loaded = true ∧ t.loaded = true) ∧
  (∀ (s t : State) (rom : List Byte), s.load rom = .next t → s.loaded = false ∧ rom ≠ [] ∧ t.loaded = true) ∧
  Fault.notStarted.code = none

/-- R7, R186: a draw whose sprite the policy does not let be drawn.  Under fault it raises the fault, and nothing
changes but the record and pc, back at the instruction; under replicate it is refused; under clip, the policy of this
hardware, and under wrap there is no such draw.  (The form of the fault and the refusal are the model's choice, log 19; that
a fault is a next state is log 1, that the record's word is recovered by encoding log 13.) -/
def Obligations.ADrawThePolicyForbidsFaultsOrIsRefused : Prop :=
  ∀ (s : State) (x y : Reg) (n : Nat), n < 16 →
    (DrawsOutside s s.v[x].toNat s.v[y].toNat n →
      (s.cfg.drawEdge = .fault →
        exec (.drawSprite x y n) s = .next { s with
          pc := s.pc - 2
          halt := some ⟨.spriteOffGrid, s.pc - 2,
            BitVec.ofNat 16 (0xD000 + 0x100 * x.val + 0x10 * y.val + n)⟩ }) ∧
      (s.cfg.drawEdge = .replicate → exec (.drawSprite x y n) s = .refused .spriteOverrun)) ∧
    (s.cfg.drawEdge = .clip ∨ s.cfg.drawEdge = .wrap → ¬ DrawsOutside s s.v[x].toNat s.v[y].toNat n)

end
end

