-- ==== Sys2Proof/Laws/Decode.lean ====
section
/-! SUPPORT. The fields (spec/30_encoding.md R72) of a word built in one of the formats (R73), and of the bytes of a word. -/

namespace Sys2Proof

/-! ## Slices of a concatenation -/

/-- A slice that lies in the low part of a concatenation. -/
theorem extract_append_low {a b : Nat} (p : BitVec a) (q : BitVec b) (lo n : Nat) (h : lo + n ≤ b) :
    (p ++ q).extractLsb' lo n = q.extractLsb' lo n := by
  apply BitVec.eq_of_getLsbD_eq
  intro i hi
  have : lo + i < b := by omega
  simp [BitVec.getLsbD_append, hi, this]

/-- A slice that lies in the high part of a concatenation. -/
theorem extract_append_high {a b : Nat} (p : BitVec a) (q : BitVec b) (lo n : Nat) (h : b ≤ lo) :
    (p ++ q).extractLsb' lo n = p.extractLsb' (lo - b) n := by
  apply BitVec.eq_of_getLsbD_eq
  intro i hi
  have : ¬ lo + i < b := by omega
  have e : lo + i - b = lo - b + i := by omega
  simp [BitVec.getLsbD_append, hi, this, e]

/-- The slice that is the whole value. -/
theorem extract_all {n : Nat} (p : BitVec n) : p.extractLsb' 0 n = p := by simp

/-- The register index of a register field. -/
theorem toFin_regBits (x : Reg) : (regBits x).toFin = x := rfl

/-! ## Format A -/

@[simp] theorem fieldOp_formatA (op : BitVec 4) (nnn : Addr) : fieldOp (formatA op nnn) = op.toNat := by
  rw [fieldOp, formatA, extract_append_high _ _ _ _ (by omega), extract_all]

@[simp] theorem fieldNNN_formatA (op : BitVec 4) (nnn : Addr) : fieldNNN (formatA op nnn) = nnn := by
  rw [fieldNNN, formatA, extract_append_low _ _ _ _ (by omega), extract_all]

/-! ## Format XK -/

@[simp] theorem fieldOp_formatXK (op : BitVec 4) (x : Reg) (kk : Byte) :
    fieldOp (formatXK op x kk) = op.toNat := by
  rw [fieldOp, formatXK, extract_append_high _ _ _ _ (by omega), extract_append_high _ _ _ _ (by omega),
    extract_all]

@[simp] theorem fieldX_formatXK (op : BitVec 4) (x : Reg) (kk : Byte) : fieldX (formatXK op x kk) = x := by
  rw [fieldX, formatXK, extract_append_high _ _ _ _ (by omega), extract_append_low _ _ _ _ (by omega),
    extract_all, toFin_regBits]

@[simp] theorem fieldKK_formatXK (op : BitVec 4) (x : Reg) (kk : Byte) : fieldKK (formatXK op x kk) = kk := by
  rw [fieldKK, formatXK, extract_append_low _ _ _ _ (by omega), extract_all]

/-! ## Formats XY, XYF and XYN -/

@[simp] theorem fieldOp_formatXYN (op : BitVec 4) (x : Reg) (y n : BitVec 4) :
    fieldOp (formatXYN op x y n) = op.toNat := by
  rw [fieldOp, formatXYN, extract_append_high _ _ _ _ (by omega), extract_append_high _ _ _ _ (by omega),
    extract_append_high _ _ _ _ (by omega), extract_all]

@[simp] theorem fieldX_formatXYN (op : BitVec 4) (x : Reg) (y n : BitVec 4) :
    fieldX (formatXYN op x y n) = x := by
  rw [fieldX, formatXYN, extract_append_high _ _ _ _ (by omega), extract_append_high _ _ _ _ (by omega),
    extract_append_low _ _ _ _ (by omega), extract_all, toFin_regBits]

/-- The nibble 7:4 as bits. -/
@[simp] theorem nibble1_formatXYN (op : BitVec 4) (x : Reg) (y n : BitVec 4) :
    (formatXYN op x y n).extractLsb' 4 4 = y := by
  rw [formatXYN, extract_append_high _ _ _ _ (by omega), extract_append_low _ _ _ _ (by omega), extract_all]

/-- The nibble 3:0 as bits. -/
@[simp] theorem nibble0_formatXYN (op : BitVec 4) (x : Reg) (y n : BitVec 4) :
    (formatXYN op x y n).extractLsb' 0 4 = n := by
  rw [formatXYN, extract_append_low _ _ _ _ (by omega), extract_all]

@[simp] theorem fieldY_formatXYN (op : BitVec 4) (x y : Reg) (n : BitVec 4) :
    fieldY (formatXYN op x (regBits y) n) = y := by
  rw [fieldY, nibble1_formatXYN, toFin_regBits]

@[simp] theorem fieldN_formatXYN (op : BitVec 4) (x : Reg) (y n : BitVec 4) :
    fieldN (formatXYN op x y n) = n.toNat := by
  rw [fieldN, nibble0_formatXYN]

/-! ## A word from its fields -/

theorem regBits_fieldX (w : Word) : regBits (fieldX w) = w.extractLsb' 8 4 := rfl

theorem regBits_fieldY (w : Word) : regBits (fieldY w) = w.extractLsb' 4 4 := rfl

/-- The primary group as bits, from its number. -/
theorem nibble3_of_fieldOp (w : Word) {k : Nat} (h : fieldOp w = k) : w.extractLsb' 12 4 = BitVec.ofNat 4 k := by
  rw [← h, fieldOp, BitVec.ofNat_toNat, BitVec.setWidth_eq]

/-- A word is its op and its nnn. -/
theorem eq_formatA (w : Word) : w = formatA (w.extractLsb' 12 4) (fieldNNN w) := by
  apply BitVec.eq_of_getLsbD_eq; intro i hi
  simp only [formatA, fieldNNN, BitVec.getLsbD_append, BitVec.getLsbD_extractLsb']
  by_cases h : i < 12
  · simp [h]
  · have : 12 + (i - 12) = i := by omega
    have h2 : i - 12 < 4 := by omega
    simp [h, this, h2]

/-- A word is its op, its x and its kk. -/
theorem eq_formatXK (w : Word) : w = formatXK (w.extractLsb' 12 4) (fieldX w) (fieldKK w) := by
  apply BitVec.eq_of_getLsbD_eq; intro i hi
  simp only [formatXK, regBits_fieldX, fieldKK, BitVec.getLsbD_append, BitVec.getLsbD_extractLsb']
  by_cases h : i < 8
  · simp [h]
  · by_cases h' : i - 8 < 4
    · have : 8 + (i - 8) = i := by omega
      simp [h, h', this]
    · have : 12 + (i - 8 - 4) = i := by omega
      have h2 : i - 8 - 4 < 4 := by omega
      simp [h, h', this, h2]

/-- A word is its four nibbles. -/
theorem eq_formatXYN (w : Word) :
    w = formatXYN (w.extractLsb' 12 4) (fieldX w) (w.extractLsb' 4 4) (w.extractLsb' 0 4) := by
  apply BitVec.eq_of_getLsbD_eq; intro i hi
  simp only [formatXYN, regBits_fieldX, BitVec.getLsbD_append, BitVec.getLsbD_extractLsb']
  by_cases h : i < 4
  · simp [h]
  · by_cases h' : i - 4 < 4
    · have : 4 + (i - 4) = i := by omega
      simp [h, h', this]
    · by_cases h'' : i - 4 - 4 < 4
      · have : 8 + (i - 4 - 4) = i := by omega
        simp [h, h', h'', this]
      · have : 12 + (i - 4 - 4 - 4) = i := by omega
        have h2 : i - 4 - 4 - 4 < 4 := by omega
        simp [h, h', h'', this, h2]

/-! ## A word as a number -/

/-- The number of a concatenation. -/
theorem toNat_append_eq {a b : Nat} (p : BitVec a) (q : BitVec b) :
    (p ++ q).toNat = p.toNat * 2 ^ b + q.toNat := by
  rw [BitVec.toNat_append, Nat.shiftLeft_eq, Nat.mul_comm, ← Nat.two_pow_add_eq_or_of_lt q.isLt]

theorem toNat_formatA (op : BitVec 4) (nnn : Addr) :
    (formatA op nnn).toNat = 0x1000 * op.toNat + nnn.toNat := by
  rw [formatA, toNat_append_eq]; omega

theorem toNat_formatXK (op : BitVec 4) (x : Reg) (kk : Byte) :
    (formatXK op x kk).toNat = 0x1000 * op.toNat + 0x100 * x.val + kk.toNat := by
  have h1 : (regBits x).toNat = x.val := rfl
  rw [formatXK, toNat_append_eq, toNat_append_eq, h1]; omega

theorem toNat_formatXYN (op : BitVec 4) (x : Reg) (y n : BitVec 4) :
    (formatXYN op x y n).toNat = 0x1000 * op.toNat + 0x100 * x.val + 0x10 * y.toNat + n.toNat := by
  have h1 : (regBits x).toNat = x.val := rfl
  rw [formatXYN, toNat_append_eq, toNat_append_eq, toNat_append_eq, h1]; omega

/-! ## The bytes of a word (R54) -/

/-- A word's two bytes assemble to the word. -/
theorem wordOfBytes_wordBytes (w : Word) : wordOfBytes (w.extractLsb' 8 8) (w.extractLsb' 0 8) = w := by
  apply BitVec.eq_of_getLsbD_eq
  intro i hi
  rw [wordOfBytes, BitVec.getLsbD_append]
  by_cases h : i < 8
  · simp [h]
  · have e : 8 + (i - 8) = i := by omega
    have h' : i - 8 < 8 := by omega
    simp [h, h', e]

/-- Decoding the bytes of a word. -/
theorem decodeBytes_wordBytes (w : Word) (rest : List Byte) :
    decodeBytes (wordBytes w ++ rest) =
      match decodeWord w with
      | some i => .instr i rest
      | none => .unknown w := by
  cases h : decodeWord w <;> simp [wordBytes, decodeBytes, wordOfBytes_wordBytes, h]

end Sys2Proof
end

