-- ==== Sys2Proof/Laws/State.lean ====
section
/-! SUPPORT. One lemma per field of the state for each named update, so that no proof unfolds a record update. -/

namespace Sys2Proof.Machine

/-! ## setReg -/

@[simp] theorem State.setReg_cfg (s : State) (x : Reg) (b : Byte) : (s.setReg x b).cfg = s.cfg := rfl
@[simp] theorem State.setReg_v (s : State) (x : Reg) (b : Byte) : (s.setReg x b).v = s.v.set x b := rfl
@[simp] theorem State.setReg_idx (s : State) (x : Reg) (b : Byte) : (s.setReg x b).idx = s.idx := rfl
@[simp] theorem State.setReg_pc (s : State) (x : Reg) (b : Byte) : (s.setReg x b).pc = s.pc := rfl
@[simp] theorem State.setReg_dt (s : State) (x : Reg) (b : Byte) : (s.setReg x b).dt = s.dt := rfl
@[simp] theorem State.setReg_st (s : State) (x : Reg) (b : Byte) : (s.setReg x b).st = s.st := rfl
@[simp] theorem State.setReg_stack (s : State) (x : Reg) (b : Byte) : (s.setReg x b).stack = s.stack := rfl
@[simp] theorem State.setReg_sp (s : State) (x : Reg) (b : Byte) : (s.setReg x b).sp = s.sp := rfl
@[simp] theorem State.setReg_mem (s : State) (x : Reg) (b : Byte) : (s.setReg x b).mem = s.mem := rfl
@[simp] theorem State.setReg_disp (s : State) (x : Reg) (b : Byte) : (s.setReg x b).disp = s.disp := rfl
@[simp] theorem State.setReg_keys (s : State) (x : Reg) (b : Byte) : (s.setReg x b).keys = s.keys := rfl
@[simp] theorem State.setReg_dirty (s : State) (x : Reg) (b : Byte) : (s.setReg x b).dirty = s.dirty := rfl
@[simp] theorem State.setReg_cyc (s : State) (x : Reg) (b : Byte) : (s.setReg x b).cyc = s.cyc := rfl
@[simp] theorem State.setReg_halt (s : State) (x : Reg) (b : Byte) : (s.setReg x b).halt = s.halt := rfl
@[simp] theorem State.setReg_loaded (s : State) (x : Reg) (b : Byte) : (s.setReg x b).loaded = s.loaded := rfl
@[simp] theorem State.setReg_inputs (s : State) (x : Reg) (b : Byte) : (s.setReg x b).inputs = s.inputs := rfl
@[simp] theorem State.setReg_outputs (s : State) (x : Reg) (b : Byte) : (s.setReg x b).outputs = s.outputs := rfl

/-! ## setPc -/

@[simp] theorem State.setPc_cfg (s : State) (a : Addr) : (s.setPc a).cfg = s.cfg := rfl
@[simp] theorem State.setPc_v (s : State) (a : Addr) : (s.setPc a).v = s.v := rfl
@[simp] theorem State.setPc_idx (s : State) (a : Addr) : (s.setPc a).idx = s.idx := rfl
@[simp] theorem State.setPc_pc (s : State) (a : Addr) : (s.setPc a).pc = a := rfl
@[simp] theorem State.setPc_dt (s : State) (a : Addr) : (s.setPc a).dt = s.dt := rfl
@[simp] theorem State.setPc_st (s : State) (a : Addr) : (s.setPc a).st = s.st := rfl
@[simp] theorem State.setPc_stack (s : State) (a : Addr) : (s.setPc a).stack = s.stack := rfl
@[simp] theorem State.setPc_sp (s : State) (a : Addr) : (s.setPc a).sp = s.sp := rfl
@[simp] theorem State.setPc_mem (s : State) (a : Addr) : (s.setPc a).mem = s.mem := rfl
@[simp] theorem State.setPc_disp (s : State) (a : Addr) : (s.setPc a).disp = s.disp := rfl
@[simp] theorem State.setPc_keys (s : State) (a : Addr) : (s.setPc a).keys = s.keys := rfl
@[simp] theorem State.setPc_dirty (s : State) (a : Addr) : (s.setPc a).dirty = s.dirty := rfl
@[simp] theorem State.setPc_cyc (s : State) (a : Addr) : (s.setPc a).cyc = s.cyc := rfl
@[simp] theorem State.setPc_halt (s : State) (a : Addr) : (s.setPc a).halt = s.halt := rfl
@[simp] theorem State.setPc_loaded (s : State) (a : Addr) : (s.setPc a).loaded = s.loaded := rfl
@[simp] theorem State.setPc_inputs (s : State) (a : Addr) : (s.setPc a).inputs = s.inputs := rfl
@[simp] theorem State.setPc_outputs (s : State) (a : Addr) : (s.setPc a).outputs = s.outputs := rfl

/-! ## advancePc -/

@[simp] theorem State.advancePc_cfg (s : State) : (s.advancePc).cfg = s.cfg := rfl
@[simp] theorem State.advancePc_v (s : State) : (s.advancePc).v = s.v := rfl
@[simp] theorem State.advancePc_idx (s : State) : (s.advancePc).idx = s.idx := rfl
@[simp] theorem State.advancePc_pc (s : State) : (s.advancePc).pc = s.pc + 2 := rfl
@[simp] theorem State.advancePc_dt (s : State) : (s.advancePc).dt = s.dt := rfl
@[simp] theorem State.advancePc_st (s : State) : (s.advancePc).st = s.st := rfl
@[simp] theorem State.advancePc_stack (s : State) : (s.advancePc).stack = s.stack := rfl
@[simp] theorem State.advancePc_sp (s : State) : (s.advancePc).sp = s.sp := rfl
@[simp] theorem State.advancePc_mem (s : State) : (s.advancePc).mem = s.mem := rfl
@[simp] theorem State.advancePc_disp (s : State) : (s.advancePc).disp = s.disp := rfl
@[simp] theorem State.advancePc_keys (s : State) : (s.advancePc).keys = s.keys := rfl
@[simp] theorem State.advancePc_dirty (s : State) : (s.advancePc).dirty = s.dirty := rfl
@[simp] theorem State.advancePc_cyc (s : State) : (s.advancePc).cyc = s.cyc := rfl
@[simp] theorem State.advancePc_halt (s : State) : (s.advancePc).halt = s.halt := rfl
@[simp] theorem State.advancePc_loaded (s : State) : (s.advancePc).loaded = s.loaded := rfl
@[simp] theorem State.advancePc_inputs (s : State) : (s.advancePc).inputs = s.inputs := rfl
@[simp] theorem State.advancePc_outputs (s : State) : (s.advancePc).outputs = s.outputs := rfl

/-! ## skipIf -/

@[simp] theorem State.skipIf_cfg (s : State) (p : Bool) : (s.skipIf p).cfg = s.cfg := rfl
@[simp] theorem State.skipIf_v (s : State) (p : Bool) : (s.skipIf p).v = s.v := rfl
@[simp] theorem State.skipIf_idx (s : State) (p : Bool) : (s.skipIf p).idx = s.idx := rfl
@[simp] theorem State.skipIf_pc (s : State) (p : Bool) : (s.skipIf p).pc = if p then s.pc + 2 else s.pc := rfl
@[simp] theorem State.skipIf_dt (s : State) (p : Bool) : (s.skipIf p).dt = s.dt := rfl
@[simp] theorem State.skipIf_st (s : State) (p : Bool) : (s.skipIf p).st = s.st := rfl
@[simp] theorem State.skipIf_stack (s : State) (p : Bool) : (s.skipIf p).stack = s.stack := rfl
@[simp] theorem State.skipIf_sp (s : State) (p : Bool) : (s.skipIf p).sp = s.sp := rfl
@[simp] theorem State.skipIf_mem (s : State) (p : Bool) : (s.skipIf p).mem = s.mem := rfl
@[simp] theorem State.skipIf_disp (s : State) (p : Bool) : (s.skipIf p).disp = s.disp := rfl
@[simp] theorem State.skipIf_keys (s : State) (p : Bool) : (s.skipIf p).keys = s.keys := rfl
@[simp] theorem State.skipIf_dirty (s : State) (p : Bool) : (s.skipIf p).dirty = s.dirty := rfl
@[simp] theorem State.skipIf_cyc (s : State) (p : Bool) : (s.skipIf p).cyc = s.cyc := rfl
@[simp] theorem State.skipIf_halt (s : State) (p : Bool) : (s.skipIf p).halt = s.halt := rfl
@[simp] theorem State.skipIf_loaded (s : State) (p : Bool) : (s.skipIf p).loaded = s.loaded := rfl
@[simp] theorem State.skipIf_inputs (s : State) (p : Bool) : (s.skipIf p).inputs = s.inputs := rfl
@[simp] theorem State.skipIf_outputs (s : State) (p : Bool) : (s.skipIf p).outputs = s.outputs := rfl

/-! ## writeByte -/

@[simp] theorem State.writeByte_cfg (s : State) (a : Addr) (b : Byte) : (s.writeByte a b).cfg = s.cfg := rfl
@[simp] theorem State.writeByte_v (s : State) (a : Addr) (b : Byte) : (s.writeByte a b).v = s.v := rfl
@[simp] theorem State.writeByte_idx (s : State) (a : Addr) (b : Byte) : (s.writeByte a b).idx = s.idx := rfl
@[simp] theorem State.writeByte_pc (s : State) (a : Addr) (b : Byte) : (s.writeByte a b).pc = s.pc := rfl
@[simp] theorem State.writeByte_dt (s : State) (a : Addr) (b : Byte) : (s.writeByte a b).dt = s.dt := rfl
@[simp] theorem State.writeByte_st (s : State) (a : Addr) (b : Byte) : (s.writeByte a b).st = s.st := rfl
@[simp] theorem State.writeByte_stack (s : State) (a : Addr) (b : Byte) : (s.writeByte a b).stack = s.stack := rfl
@[simp] theorem State.writeByte_sp (s : State) (a : Addr) (b : Byte) : (s.writeByte a b).sp = s.sp := rfl
@[simp] theorem State.writeByte_mem (s : State) (a : Addr) (b : Byte) : (s.writeByte a b).mem = Memory.write s.cfg s.mem a b := rfl
@[simp] theorem State.writeByte_disp (s : State) (a : Addr) (b : Byte) : (s.writeByte a b).disp = s.disp := rfl
@[simp] theorem State.writeByte_keys (s : State) (a : Addr) (b : Byte) : (s.writeByte a b).keys = s.keys := rfl
@[simp] theorem State.writeByte_dirty (s : State) (a : Addr) (b : Byte) : (s.writeByte a b).dirty = s.dirty := rfl
@[simp] theorem State.writeByte_cyc (s : State) (a : Addr) (b : Byte) : (s.writeByte a b).cyc = s.cyc := rfl
@[simp] theorem State.writeByte_halt (s : State) (a : Addr) (b : Byte) : (s.writeByte a b).halt = s.halt := rfl
@[simp] theorem State.writeByte_loaded (s : State) (a : Addr) (b : Byte) : (s.writeByte a b).loaded = s.loaded := rfl
@[simp] theorem State.writeByte_inputs (s : State) (a : Addr) (b : Byte) : (s.writeByte a b).inputs = s.inputs := rfl
@[simp] theorem State.writeByte_outputs (s : State) (a : Addr) (b : Byte) : (s.writeByte a b).outputs = s.outputs := rfl

/-! ## raise -/

@[simp] theorem State.raise_cfg (s : State) (c : FaultCause) (w : Word) : (s.raise c w).cfg = s.cfg := rfl
@[simp] theorem State.raise_v (s : State) (c : FaultCause) (w : Word) : (s.raise c w).v = s.v := rfl
@[simp] theorem State.raise_idx (s : State) (c : FaultCause) (w : Word) : (s.raise c w).idx = s.idx := rfl
@[simp] theorem State.raise_pc (s : State) (c : FaultCause) (w : Word) : (s.raise c w).pc = s.pc - 2 := rfl
@[simp] theorem State.raise_dt (s : State) (c : FaultCause) (w : Word) : (s.raise c w).dt = s.dt := rfl
@[simp] theorem State.raise_st (s : State) (c : FaultCause) (w : Word) : (s.raise c w).st = s.st := rfl
@[simp] theorem State.raise_stack (s : State) (c : FaultCause) (w : Word) : (s.raise c w).stack = s.stack := rfl
@[simp] theorem State.raise_sp (s : State) (c : FaultCause) (w : Word) : (s.raise c w).sp = s.sp := rfl
@[simp] theorem State.raise_mem (s : State) (c : FaultCause) (w : Word) : (s.raise c w).mem = s.mem := rfl
@[simp] theorem State.raise_disp (s : State) (c : FaultCause) (w : Word) : (s.raise c w).disp = s.disp := rfl
@[simp] theorem State.raise_keys (s : State) (c : FaultCause) (w : Word) : (s.raise c w).keys = s.keys := rfl
@[simp] theorem State.raise_dirty (s : State) (c : FaultCause) (w : Word) : (s.raise c w).dirty = s.dirty := rfl
@[simp] theorem State.raise_cyc (s : State) (c : FaultCause) (w : Word) : (s.raise c w).cyc = s.cyc := rfl
@[simp] theorem State.raise_halt (s : State) (c : FaultCause) (w : Word) : (s.raise c w).halt = some ⟨c, s.pc - 2, w⟩ := rfl
@[simp] theorem State.raise_loaded (s : State) (c : FaultCause) (w : Word) : (s.raise c w).loaded = s.loaded := rfl
@[simp] theorem State.raise_inputs (s : State) (c : FaultCause) (w : Word) : (s.raise c w).inputs = s.inputs := rfl
@[simp] theorem State.raise_outputs (s : State) (c : FaultCause) (w : Word) : (s.raise c w).outputs = s.outputs := rfl

/-! ## beginCycle -/

@[simp] theorem State.beginCycle_cfg (s : State) : (s.beginCycle).cfg = s.cfg := rfl
@[simp] theorem State.beginCycle_v (s : State) : (s.beginCycle).v = s.v := rfl
@[simp] theorem State.beginCycle_idx (s : State) : (s.beginCycle).idx = s.idx := rfl
@[simp] theorem State.beginCycle_pc (s : State) : (s.beginCycle).pc = s.pc := rfl
@[simp] theorem State.beginCycle_dt (s : State) : (s.beginCycle).dt = s.dt := rfl
@[simp] theorem State.beginCycle_st (s : State) : (s.beginCycle).st = s.st := rfl
@[simp] theorem State.beginCycle_stack (s : State) : (s.beginCycle).stack = s.stack := rfl
@[simp] theorem State.beginCycle_sp (s : State) : (s.beginCycle).sp = s.sp := rfl
@[simp] theorem State.beginCycle_mem (s : State) : (s.beginCycle).mem = s.mem := rfl
@[simp] theorem State.beginCycle_disp (s : State) : (s.beginCycle).disp = s.disp := rfl
@[simp] theorem State.beginCycle_keys (s : State) : (s.beginCycle).keys = if s.cyc = 0 then s.inputs.keyVector else s.keys := rfl
@[simp] theorem State.beginCycle_dirty (s : State) : (s.beginCycle).dirty = s.dirty := rfl
@[simp] theorem State.beginCycle_cyc (s : State) : (s.beginCycle).cyc = s.cyc := rfl
@[simp] theorem State.beginCycle_halt (s : State) : (s.beginCycle).halt = s.halt := rfl
@[simp] theorem State.beginCycle_loaded (s : State) : (s.beginCycle).loaded = s.loaded := rfl
@[simp] theorem State.beginCycle_inputs (s : State) : (s.beginCycle).inputs = if s.cyc = 0 then s.inputs.afterKeys else s.inputs := rfl
@[simp] theorem State.beginCycle_outputs (s : State) : (s.beginCycle).outputs = .quiet := rfl

/-! ## handOff -/

@[simp] theorem State.handOff_cfg (s : State) : (s.handOff).cfg = s.cfg := rfl
@[simp] theorem State.handOff_v (s : State) : (s.handOff).v = s.v := rfl
@[simp] theorem State.handOff_idx (s : State) : (s.handOff).idx = s.idx := rfl
@[simp] theorem State.handOff_pc (s : State) : (s.handOff).pc = s.pc := rfl
@[simp] theorem State.handOff_dt (s : State) : (s.handOff).dt = s.dt := rfl
@[simp] theorem State.handOff_st (s : State) : (s.handOff).st = s.st := rfl
@[simp] theorem State.handOff_stack (s : State) : (s.handOff).stack = s.stack := rfl
@[simp] theorem State.handOff_sp (s : State) : (s.handOff).sp = s.sp := rfl
@[simp] theorem State.handOff_mem (s : State) : (s.handOff).mem = s.mem := rfl
@[simp] theorem State.handOff_disp (s : State) : (s.handOff).disp = s.disp := rfl
@[simp] theorem State.handOff_keys (s : State) : (s.handOff).keys = s.keys := rfl
@[simp] theorem State.handOff_dirty (s : State) : (s.handOff).dirty = false := rfl
@[simp] theorem State.handOff_cyc (s : State) : (s.handOff).cyc = s.cyc := rfl
@[simp] theorem State.handOff_halt (s : State) : (s.handOff).halt = s.halt := rfl
@[simp] theorem State.handOff_loaded (s : State) : (s.handOff).loaded = s.loaded := rfl
@[simp] theorem State.handOff_inputs (s : State) : (s.handOff).inputs = s.inputs := rfl
@[simp] theorem State.handOff_outputs (s : State) : (s.handOff).outputs = ⟨if s.dirty then some s.disp else s.outputs.render, s.outputs.cue⟩ := rfl

/-! ## tick -/

@[simp] theorem State.tick_cfg (s : State) : (s.tick).cfg = s.cfg := rfl
@[simp] theorem State.tick_v (s : State) : (s.tick).v = s.v := rfl
@[simp] theorem State.tick_idx (s : State) : (s.tick).idx = s.idx := rfl
@[simp] theorem State.tick_pc (s : State) : (s.tick).pc = s.pc := rfl
@[simp] theorem State.tick_dt (s : State) : (s.tick).dt = countDown s.dt := rfl
@[simp] theorem State.tick_st (s : State) : (s.tick).st = countDown s.st := rfl
@[simp] theorem State.tick_stack (s : State) : (s.tick).stack = s.stack := rfl
@[simp] theorem State.tick_sp (s : State) : (s.tick).sp = s.sp := rfl
@[simp] theorem State.tick_mem (s : State) : (s.tick).mem = s.mem := rfl
@[simp] theorem State.tick_disp (s : State) : (s.tick).disp = s.disp := rfl
@[simp] theorem State.tick_keys (s : State) : (s.tick).keys = s.keys := rfl
@[simp] theorem State.tick_dirty (s : State) : (s.tick).dirty = s.dirty := rfl
@[simp] theorem State.tick_cyc (s : State) : (s.tick).cyc = s.cyc := rfl
@[simp] theorem State.tick_halt (s : State) : (s.tick).halt = s.halt := rfl
@[simp] theorem State.tick_loaded (s : State) : (s.tick).loaded = s.loaded := rfl
@[simp] theorem State.tick_inputs (s : State) : (s.tick).inputs = s.inputs := rfl
@[simp] theorem State.tick_outputs (s : State) : (s.tick).outputs = ⟨s.outputs.render, s.outputs.cue || decide (s.st = 1)⟩ := rfl

/-! ## Reading -/

theorem State.reg_eq (s : State) (x : Reg) : s.reg x = s.v[x] := rfl

theorem State.ia_eq (s : State) : s.ia = s.pc - 2 := rfl

/-- In the execute phase `ia` is the address the fetch read (R91). -/
@[simp] theorem State.ia_advancePc (s : State) : s.advancePc.ia = s.pc := by
  show s.pc + 2 - 2 = s.pc
  rw [BitVec.add_sub_cancel]

/-- What a register reads after a register write (R21). -/
theorem State.reg_setReg (s : State) (x y : Reg) (b : Byte) :
    (s.setReg x b).reg y = if x = y then b else s.reg y := by
  simp [State.reg, Vector.getElem_set, Fin.ext_iff]

@[simp] theorem State.reg_setReg_same (s : State) (x : Reg) (b : Byte) : (s.setReg x b).reg x = b := by
  simp [State.reg_setReg]

theorem State.reg_setReg_other (s : State) (x y : Reg) (b : Byte) (h : x ≠ y) :
    (s.setReg x b).reg y = s.reg y := by
  simp [State.reg_setReg, h]

/-- What a register reads after a flag-writing instruction (R141): the result if it is the destination, else the
flag if it is V[15], else what it was. -/
theorem State.reg_writeFlagged (s : State) (x y : Reg) (f r : Byte) :
    (s.writeFlagged x f r).reg y = if x = y then r else if flagReg = y then f else s.reg y := by
  simp [State.writeFlagged, State.reg_setReg]

/-- A read of memory depends on the parameters and the memory alone. -/
theorem State.readByte_congr {s t : State} (hc : t.cfg = s.cfg) (hm : t.mem = s.mem) (a : Addr) :
    t.readByte a = s.readByte a := by
  simp [State.readByte, hc, hm]

@[simp] theorem State.readByte_setReg (s : State) (x : Reg) (b : Byte) (a : Addr) :
    (s.setReg x b).readByte a = s.readByte a := rfl

@[simp] theorem State.readByte_setPc (s : State) (p a : Addr) : (s.setPc p).readByte a = s.readByte a := rfl

@[simp] theorem State.fetchWord_beginCycle (s : State) : s.beginCycle.fetchWord = s.fetchWord := rfl

end Sys2Proof.Machine
end

