-- ==== Sys2Proof/Laws/Draw.lean ====
section
/-! SUPPORT. What the blitter does to every cell of the display and to the collision bit (spec/47_draw.md R185 to R188). -/

namespace Sys2Proof.Machine

/-- The cell in column `x` and row `y`. -/
def Blit.cell (b : Blit) (x : Fin 64) (y : Fin 32) : Bool := b.disp[y][x]

/-- Writing one cell of a display, and reading any. -/
theorem display_set (d : Display) (x qx : Fin 64) (y qy : Fin 32) (c : Bool) :
    (d.set y (d[y].set x c))[qy][qx] = if qx = x ∧ qy = y then c else d[qy][qx] := by
  by_cases h : qy = y
  · subst h
    by_cases h' : qx = x
    · subst h'; simp
    · have : x.val ≠ qx.val := fun e => h' (Fin.ext e.symm)
      simp [h', this]
  · have : y.val ≠ qy.val := fun e => h (Fin.ext e.symm)
    simp [h, this]

/-- One pixel: the cell it addresses is inverted, the others stay. -/
theorem Blit.cell_pixel (e : EdgePolicy) (b : Blit) (px py : Nat) (qx : Fin 64) (qy : Fin 32) :
    (b.pixel e px py).cell qx qy = (b.cell qx qy != decide (pixelCell e px py = some (qx, qy))) := by
  rw [Blit.pixel]
  cases h : pixelCell e px py with
  | none => simp
  | some q =>
    obtain ⟨x, y⟩ := q
    simp only [Blit.cell, display_set]
    by_cases hq : qx = x ∧ qy = y
    · obtain ⟨rfl, rfl⟩ := hq; simp
    · have : ¬ (x = qx ∧ y = qy) := fun e => hq ⟨e.1.symm, e.2.symm⟩
      simp [hq, this]

/-- One pixel: it collides if it addresses a cell that is on. -/
theorem Blit.hit_pixel (e : EdgePolicy) (b : Blit) (px py : Nat) :
    (b.pixel e px py).hit = true ↔
      b.hit = true ∨ ∃ qx qy, pixelCell e px py = some (qx, qy) ∧ b.cell qx qy = true := by
  rw [Blit.pixel]
  cases h : pixelCell e px py with
  | none => simp
  | some q => obtain ⟨x, y⟩ := q; simp [Blit.cell]

/-! ## The pixel of a sprite that addresses a cell -/

/-- The column and the row of the sprite pixel that addresses the cell (qx, qy); (64, 32) if there is none. -/
def pixelOf (e : EdgePolicy) (x0 y0 : Nat) (qx : Fin 64) (qy : Fin 32) : Nat × Nat :=
  match e with
  | .clip | .fault => if x0 ≤ qx.val ∧ y0 ≤ qy.val then (qx.val - x0, qy.val - y0) else (64, 32)
  | .wrap => ((qx.val + 64 - x0 % 64) % 64, (qy.val + 32 - y0 % 32) % 32)
  | .replicate =>
    if 64 * y0 + x0 ≤ 64 * qy.val + qx.val then
      ((64 * qy.val + qx.val - (64 * y0 + x0)) % 64, (64 * qy.val + qx.val - (64 * y0 + x0)) / 64)
    else (64, 32)

/-- The column of that pixel. -/
def colOf (e : EdgePolicy) (x0 y0 : Nat) (qx : Fin 64) (qy : Fin 32) : Nat := (pixelOf e x0 y0 qx qy).1

/-- The row of that pixel. -/
def rowOf (e : EdgePolicy) (x0 y0 : Nat) (qx : Fin 64) (qy : Fin 32) : Nat := (pixelOf e x0 y0 qx qy).2

/-- A cell is addressed by one pixel of a sprite of at most 64 columns and 32 rows, or by none: the pixels of a sprite
address distinct cells (R188). -/
theorem pixelCell_iff (e : EdgePolicy) (x0 y0 : Nat) {col row : Nat} (hc : col < 64) (hr : row < 32) (qx : Fin 64)
    (qy : Fin 32) :
    pixelCell e (x0 + col) (y0 + row) = some (qx, qy) ↔ col = colOf e x0 y0 qx qy ∧ row = rowOf e x0 y0 qx qy := by
  have h1 := qx.isLt
  have h2 := qy.isLt
  have clipped : ∀ e', e' = .clip ∨ e' = .fault → (pixelCell e' (x0 + col) (y0 + row) = some (qx, qy) ↔
      col = colOf e' x0 y0 qx qy ∧ row = rowOf e' x0 y0 qx qy) := by
    rintro _ (rfl | rfl) <;>
    · simp only [pixelCell, colOf, rowOf, pixelOf]
      by_cases h : x0 + col < 64 ∧ y0 + row < 32
      · rw [dif_pos h]
        simp only [Option.some.injEq, Prod.mk.injEq, Fin.ext_iff]
        split <;> simp only <;> omega
      · rw [dif_neg h]
        simp only [reduceCtorEq, false_iff]
        split <;> simp only <;> omega
  cases e with
  | clip => exact clipped _ (.inl rfl)
  | fault => exact clipped _ (.inr rfl)
  | wrap =>
    simp only [pixelCell, colOf, rowOf, pixelOf, Option.some.injEq, Prod.mk.injEq, Fin.ext_iff]
    omega
  | replicate =>
    simp only [pixelCell, colOf, rowOf, pixelOf]
    by_cases h : 64 * (y0 + row) + (x0 + col) < 2048
    · rw [dif_pos h]
      simp only [Option.some.injEq, Prod.mk.injEq, Fin.ext_iff]
      split <;> simp only <;> omega
    · rw [dif_neg h]
      simp only [reduceCtorEq, false_iff]
      split <;> simp only <;> omega

/-! ## A row, a sprite -/

/-- The columns `0 .. n - 1` of row `row` of a sprite: the cells they fall on are XORed with the byte's bits (R187). -/
theorem Blit.cell_columns (e : EdgePolicy) (r : Byte) (x0 y0 : Nat) (b : Blit) {row n : Nat} (hr : row < 32)
    (hn : n ≤ 64) (qx : Fin 64) (qy : Fin 32) :
    (Blit.columns e r x0 (y0 + row) b n).cell qx qy =
      (b.cell qx qy != (decide (colOf e x0 y0 qx qy < n ∧ row = rowOf e x0 y0 qx qy) && r.getLsbD (7 - colOf e x0 y0 qx qy))) := by
  induction n with
  | zero => simp [Blit.columns]
  | succ n ih =>
    have ih := ih (by omega)
    simp only [Blit.columns]
    by_cases hc : n = colOf e x0 y0 qx qy ∧ row = rowOf e x0 y0 qx qy
    · have h0 : ¬ (colOf e x0 y0 qx qy < n ∧ row = rowOf e x0 y0 qx qy) := by omega
      have h1 : colOf e x0 y0 qx qy < n + 1 ∧ row = rowOf e x0 y0 qx qy := by omega
      simp only [h0, decide_false, Bool.false_and, Bool.bne_false] at ih
      rw [decide_eq_true h1, Bool.true_and, ← hc.1]
      by_cases hb : r.getLsbD (7 - n) = true
      · rw [if_pos hb, Blit.cell_pixel, ih, (pixelCell_iff e x0 y0 (by omega) hr qx qy).2 hc, hb]
        simp
      · rw [if_neg hb, ih]
        simp [hb]
    · have h1 : (colOf e x0 y0 qx qy < n + 1 ∧ row = rowOf e x0 y0 qx qy) ↔ (colOf e x0 y0 qx qy < n ∧ row = rowOf e x0 y0 qx qy) := by omega
      simp only [h1]
      have h2 : ¬ pixelCell e (x0 + n) (y0 + row) = some (qx, qy) := fun h =>
        hc ((pixelCell_iff e x0 y0 (by omega) hr qx qy).1 h)
      split
      · rw [Blit.cell_pixel, ih]; simp [h2]
      · exact ih

/-- The collision bit after the columns `0 .. n - 1` of row `row`: some set bit fell on a cell that was on (R188). -/
theorem Blit.hit_columns (e : EdgePolicy) (r : Byte) (x0 y0 : Nat) (b : Blit) {row n : Nat} (hr : row < 32)
    (hn : n ≤ 64) :
    (Blit.columns e r x0 (y0 + row) b n).hit = true ↔
      b.hit = true ∨ ∃ qx qy, colOf e x0 y0 qx qy < n ∧ row = rowOf e x0 y0 qx qy ∧ r.getLsbD (7 - colOf e x0 y0 qx qy) = true ∧
        b.cell qx qy = true := by
  induction n with
  | zero => simp [Blit.columns]
  | succ n ih =>
    have ih := ih (by omega)
    have hcell : ∀ qx qy, pixelCell e (x0 + n) (y0 + row) = some (qx, qy) →
        (Blit.columns e r x0 (y0 + row) b n).cell qx qy = b.cell qx qy := by
      intro qx qy h
      have := (pixelCell_iff e x0 y0 (by omega) hr qx qy).1 h
      have h0 : ¬ (colOf e x0 y0 qx qy < n ∧ row = rowOf e x0 y0 qx qy) := by omega
      rw [Blit.cell_columns e r x0 y0 b hr (by omega)]
      simp [h0]
    simp only [Blit.columns]
    constructor
    · intro h
      split at h
      · rename_i hb
        rcases (Blit.hit_pixel e _ _ _).1 h with h | ⟨qx, qy, h1, h2⟩
        · exact (ih.1 h).imp_right fun ⟨qx, qy, h1, h2⟩ => ⟨qx, qy, by omega, h2⟩
        · have hp := (pixelCell_iff e x0 y0 (by omega) hr qx qy).1 h1
          rw [hcell qx qy h1] at h2
          exact .inr ⟨qx, qy, by omega, hp.2, by rw [← hp.1]; exact hb, h2⟩
      · exact (ih.1 h).imp_right fun ⟨qx, qy, h1, h2⟩ => ⟨qx, qy, by omega, h2⟩
    · rintro (h | ⟨qx, qy, h1, h2, h3, h4⟩)
      · have := ih.2 (.inl h)
        split
        · exact (Blit.hit_pixel e _ _ _).2 (.inl this)
        · exact this
      · by_cases hc : colOf e x0 y0 qx qy = n
        · have hp := (pixelCell_iff e x0 y0 (col := n) (by omega) hr qx qy).2 ⟨hc.symm, h2⟩
          rw [hc] at h3
          rw [if_pos h3]
          exact (Blit.hit_pixel e _ _ _).2 (.inr ⟨qx, qy, hp, by rw [hcell qx qy hp]; exact h4⟩)
        · have := ih.2 (.inr ⟨qx, qy, by omega, h2, h3, h4⟩)
          split
          · exact (Blit.hit_pixel e _ _ _).2 (.inl this)
          · exact this

/-- A set bit of a sprite of `n` rows falls on the cell (qx, qy). -/
def spriteHits (e : EdgePolicy) (rows : Nat → Byte) (x0 y0 n : Nat) (qx : Fin 64) (qy : Fin 32) : Bool :=
  decide (colOf e x0 y0 qx qy < 8 ∧ rowOf e x0 y0 qx qy < n) && (rows (rowOf e x0 y0 qx qy)).getLsbD (7 - colOf e x0 y0 qx qy)

/-- The bit falls on the cell iff some set pixel of the sprite addresses it. -/
theorem spriteHits_iff (e : EdgePolicy) (rows : Nat → Byte) (x0 y0 : Nat) {n : Nat} (hn : n ≤ 32) (qx : Fin 64)
    (qy : Fin 32) :
    spriteHits e rows x0 y0 n qx qy = true ↔
      ∃ row < n, ∃ col < 8, (rows row).getLsbD (7 - col) = true ∧
        pixelCell e (x0 + col) (y0 + row) = some (qx, qy) := by
  simp only [spriteHits, Bool.and_eq_true, decide_eq_true_eq]
  constructor
  · rintro ⟨⟨h1, h2⟩, h3⟩
    exact ⟨_, h2, _, h1, h3, (pixelCell_iff e x0 y0 (by omega) (by omega) qx qy).2 ⟨rfl, rfl⟩⟩
  · rintro ⟨row, h1, col, h2, h3, h4⟩
    obtain ⟨rfl, rfl⟩ := (pixelCell_iff e x0 y0 (by omega) (by omega) qx qy).1 h4
    exact ⟨⟨h2, h1⟩, h3⟩

/-- The whole sprite: every cell is XORed with the sprite bit that falls on it. -/
theorem Blit.cell_rows (e : EdgePolicy) (rows : Nat → Byte) (x0 y0 : Nat) (b : Blit) {n : Nat} (hn : n ≤ 32)
    (qx : Fin 64) (qy : Fin 32) :
    (Blit.rows e rows x0 y0 b n).cell qx qy = (b.cell qx qy != spriteHits e rows x0 y0 n qx qy) := by
  induction n with
  | zero => simp [Blit.rows, spriteHits]
  | succ n ih =>
    rw [Blit.rows, Blit.cell_columns e _ x0 y0 _ (by omega) (by omega), ih (by omega)]
    by_cases hr : n = rowOf e x0 y0 qx qy
    · simp [spriteHits, ← hr]
    · have h1 : rowOf e x0 y0 qx qy < n + 1 ↔ rowOf e x0 y0 qx qy < n := by omega
      simp [spriteHits, h1, hr]

/-- The collision bit of the whole sprite: some set bit fell on a cell that was on before (R188). -/
theorem Blit.hit_rows (e : EdgePolicy) (rows : Nat → Byte) (x0 y0 : Nat) (b : Blit) {n : Nat} (hn : n ≤ 32) :
    (Blit.rows e rows x0 y0 b n).hit = true ↔
      b.hit = true ∨ ∃ qx qy, spriteHits e rows x0 y0 n qx qy = true ∧ b.cell qx qy = true := by
  induction n with
  | zero => simp [Blit.rows, spriteHits]
  | succ n ih =>
    rw [Blit.rows, Blit.hit_columns e _ x0 y0 _ (by omega) (by omega), ih (by omega), or_assoc]
    refine or_congr_right ?_
    constructor
    · rintro (⟨qx, qy, h1, h2⟩ | ⟨qx, qy, h1, h2, h3, h4⟩)
      · refine ⟨qx, qy, ?_, h2⟩
        simp only [spriteHits, Bool.and_eq_true, decide_eq_true_eq] at h1 ⊢
        exact ⟨⟨h1.1.1, by omega⟩, h1.2⟩
      · rw [Blit.cell_rows e rows x0 y0 b (by omega)] at h4
        have h0 : ¬ rowOf e x0 y0 qx qy < n := by omega
        simp only [spriteHits, h0, and_false, decide_false, Bool.false_and, Bool.bne_false] at h4
        refine ⟨qx, qy, ?_, h4⟩
        simp only [spriteHits, Bool.and_eq_true, decide_eq_true_eq]
        exact ⟨⟨h1, by omega⟩, by rw [← h2]; exact h3⟩
    · rintro ⟨qx, qy, h1, h2⟩
      simp only [spriteHits, Bool.and_eq_true, decide_eq_true_eq] at h1
      by_cases hr : rowOf e x0 y0 qx qy = n
      · refine .inr ⟨qx, qy, h1.1.1, hr.symm, by rw [← hr]; exact h1.2, ?_⟩
        rw [Blit.cell_rows e rows x0 y0 b (by omega)]
        have h0 : ¬ rowOf e x0 y0 qx qy < n := by omega
        simp only [spriteHits, h0, and_false, decide_false, Bool.false_and, Bool.bne_false]
        exact h2
      · refine .inl ⟨qx, qy, ?_, h2⟩
        simp only [spriteHits, Bool.and_eq_true, decide_eq_true_eq]
        exact ⟨⟨h1.1.1, by omega⟩, h1.2⟩

/-! ## Whether the sprite may be drawn -/

/-- Some set pixel keeps the sprite from being drawn. -/
theorem spriteOutside_iff (e : EdgePolicy) (rows : Nat → Byte) (x0 y0 n : Nat) :
    spriteOutside e rows x0 y0 n = true ↔
      ∃ row < n, ∃ col < 8, pixelOutside e (x0 + col) (y0 + row) = true ∧ (rows row).getLsbD (7 - col) = true := by
  simp [spriteOutside]

/-- Under the policy of this hardware, and under wrap, every sprite may be drawn. -/
theorem spriteOutside_eq_false {e : EdgePolicy} (h : e = .clip ∨ e = .wrap) (rows : Nat → Byte) (x0 y0 n : Nat) :
    spriteOutside e rows x0 y0 n = false := by
  rcases h with rfl | rfl <;> simp [spriteOutside, pixelOutside]

/-- The three ways a draw-sprite goes: it draws, it faults under the policy fault, it is refused under replicate. -/
theorem execDrawSprite_cases (x y : Reg) (n : Nat) (s : State) :
    (spriteOutside s.cfg.drawEdge s.spriteRow (s.reg x).toNat (s.reg y).toNat n = false ∧ ∃ b,
      b = Blit.rows s.cfg.drawEdge s.spriteRow (s.reg x).toNat (s.reg y).toNat { disp := s.disp, hit := false } n ∧
      execDrawSprite x y n s =
        .next { s.setReg flagReg (flagByte b.hit) with disp := b.disp, dirty := true }) ∨
    (spriteOutside s.cfg.drawEdge s.spriteRow (s.reg x).toNat (s.reg y).toNat n = true ∧ s.cfg.drawEdge = .fault ∧
      execDrawSprite x y n s = .next (s.raise .spriteOffGrid (encode (.drawSprite x y n)))) ∨
    (spriteOutside s.cfg.drawEdge s.spriteRow (s.reg x).toNat (s.reg y).toNat n = true ∧
      s.cfg.drawEdge = .replicate ∧ execDrawSprite x y n s = .refused .spriteOverrun) := by
  cases h : spriteOutside s.cfg.drawEdge s.spriteRow (s.reg x).toNat (s.reg y).toNat n with
  | false => exact .inl ⟨rfl, _, rfl, by simp [execDrawSprite, h]⟩
  | true =>
    refine .inr ?_
    cases he : s.cfg.drawEdge with
    | clip => rw [he, spriteOutside_eq_false (.inl rfl)] at h; cases h
    | wrap => rw [he, spriteOutside_eq_false (.inr rfl)] at h; cases h
    | fault => exact .inl ⟨rfl, rfl, by rw [execDrawSprite, if_pos h, if_pos he]⟩
    | replicate =>
      have : ¬ s.cfg.drawEdge = .fault := by rw [he]; simp
      exact .inr ⟨rfl, rfl, by rw [execDrawSprite, if_pos h, if_neg this]⟩

end Sys2Proof.Machine
end

