-- ==== Sys2Proof/Laws/Memory.lean ====
section
/-! SUPPORT. The laws of memory: a read after a write, the other bytes, the canonical form. -/

namespace Sys2Proof.Machine

/-! ## The list of cells -/

theorem Memory.lookup_insert (m : Memory) (a k : Nat) (v : Byte) :
    Memory.lookup (Memory.insert m a v) k = if a = k then some v else Memory.lookup m k := by
  induction m with
  | nil => simp [Memory.insert, Memory.lookup]
  | cons p m ih =>
    obtain ⟨j, b⟩ := p
    simp only [Memory.insert]
    split
    · simp [Memory.lookup]
    · split
      · rename_i h; subst h; by_cases h' : j = k <;> simp [Memory.lookup, h']
      · by_cases h' : j = k
        · subst h'; rename_i h1 h2; simp [Memory.lookup, Ne.symm h2]
        · simp [Memory.lookup, h', ih]

theorem Memory.lookup_erase (m : Memory) (a k : Nat) :
    Memory.lookup (Memory.erase m a) k = if a = k then none else Memory.lookup m k := by
  induction m with
  | nil => simp [Memory.erase, Memory.lookup]
  | cons p m ih =>
    obtain ⟨j, b⟩ := p
    by_cases h : j = a
    · subst h; by_cases h' : j = k
      · simp_all [Memory.erase]
      · simp [Memory.erase, Memory.lookup, ih, h']
    · by_cases h' : j = k
      · subst h'; simp [Memory.erase, Memory.lookup, h, Ne.symm h]
      · simp [Memory.erase, Memory.lookup, h, h', ih]

/-- A read after a write (R52, R53, R61): the byte written at the address, every other byte as it was. -/
theorem Memory.read_write (c : Config) (m : Memory) (a b : Addr) (v : Byte) :
    Memory.read c (Memory.write c m a v) b = if a = b then v else Memory.read c m b := by
  by_cases h : a = b
  · subst h
    by_cases hb : background c a.toNat = some v
    · simp [Memory.write, Memory.read, hb, Memory.lookup_erase, unlistedByte]
    · simp [Memory.write, Memory.read, hb, Memory.lookup_insert]
  · have h' : a.toNat ≠ b.toNat := fun e => h (BitVec.eq_of_toNat_eq e)
    by_cases hb : background c a.toNat = some v <;>
      simp [Memory.write, Memory.read, hb, Memory.lookup_insert, Memory.lookup_erase, h, h']

/-! ## The canonical form -/

theorem Memory.mem_insert {m : Memory} {a : Nat} {v : Byte} {p : Host.Cell} (h : p ∈ Memory.insert m a v) :
    p = (a, v) ∨ p ∈ m := by
  induction m with
  | nil => simpa [Memory.insert] using h
  | cons q m ih =>
    simp only [Memory.insert] at h
    split at h
    · simpa using h
    · split at h
      · rcases List.mem_cons.1 h with h | h
        · exact .inl h
        · exact .inr (List.mem_cons_of_mem _ h)
      · rcases List.mem_cons.1 h with h | h
        · exact .inr (h ▸ List.mem_cons_self)
        · exact (ih h).imp_right (List.mem_cons_of_mem _)

theorem Memory.mem_erase {m : Memory} {a : Nat} {p : Host.Cell} (h : p ∈ Memory.erase m a) : p ∈ m := by
  induction m with
  | nil => simp [Memory.erase] at h
  | cons q m ih =>
    simp only [Memory.erase] at h
    split at h
    · exact List.mem_cons_of_mem _ (ih h)
    · rcases List.mem_cons.1 h with h | h
      · exact h ▸ List.mem_cons_self
      · exact List.mem_cons_of_mem _ (ih h)

theorem Memory.insert_rising {m : Memory} (h : m.Pairwise fun p q => p.1 < q.1) (a : Nat) (v : Byte) :
    (Memory.insert m a v).Pairwise fun p q => p.1 < q.1 := by
  induction m with
  | nil => simp [Memory.insert]
  | cons q m ih =>
    obtain ⟨k, b⟩ := q
    have h0 := List.pairwise_cons.1 h
    simp only [Memory.insert]
    split
    · refine List.pairwise_cons.2 ⟨fun p hp => ?_, h⟩
      rcases List.mem_cons.1 hp with rfl | hp
      · assumption
      · exact Nat.lt_trans (by assumption) (h0.1 p hp)
    · split
      · rename_i e; subst e; exact List.pairwise_cons.2 h0
      · refine List.pairwise_cons.2 ⟨fun p hp => ?_, ih h0.2⟩
        rcases Memory.mem_insert hp with rfl | hp
        · show k < a; omega
        · exact h0.1 p hp

theorem Memory.erase_rising {m : Memory} (h : m.Pairwise fun p q => p.1 < q.1) (a : Nat) :
    (Memory.erase m a).Pairwise fun p q => p.1 < q.1 := by
  induction m with
  | nil => simp [Memory.erase]
  | cons q m ih =>
    have h0 := List.pairwise_cons.1 h
    simp only [Memory.erase]
    split
    · exact ih h0.2
    · exact List.pairwise_cons.2 ⟨fun p hp => h0.1 p (Memory.mem_erase hp), ih h0.2⟩

/-- The canonical form, as a proposition. -/
theorem Memory.wf_iff (c : Config) (m : Memory) :
    Memory.wf c m = true ↔ m.Pairwise (fun p q => p.1 < q.1) ∧
      ∀ p ∈ m, p.1 < 4096 ∧ background c p.1 ≠ some p.2 := by
  simp [Memory.wf]

/-- Every write keeps the canonical form. -/
theorem Memory.write_wf {c : Config} {m : Memory} (h : Memory.wf c m = true) (a : Addr) (v : Byte) :
    Memory.wf c (Memory.write c m a v) = true := by
  rw [Memory.wf_iff] at h ⊢
  by_cases hb : background c a.toNat = some v
  · simp only [Memory.write, hb, if_true]
    exact ⟨Memory.erase_rising h.1 _, fun p hp => h.2 p (Memory.mem_erase hp)⟩
  · simp only [Memory.write, hb, if_false]
    refine ⟨Memory.insert_rising h.1 _ _, fun p hp => ?_⟩
    rcases Memory.mem_insert hp with rfl | hp
    · exact ⟨a.isLt, hb⟩
    · exact h.2 p hp

/-- The memory of the reset state is in the canonical form. -/
theorem Memory.nil_wf (c : Config) : Memory.wf c [] = true := by simp [Memory.wf]

/-! ## The state's memory -/

/-- `MemRead` after `MemWrite` (R52, R53). -/
theorem State.readByte_writeByte (s : State) (a b : Addr) (v : Byte) :
    (s.writeByte a v).readByte b = if a = b then v else s.readByte b :=
  Memory.read_write s.cfg s.mem a b v

@[simp] theorem State.readByte_writeByte_same (s : State) (a : Addr) (v : Byte) :
    (s.writeByte a v).readByte a = v := by simp [State.readByte_writeByte]

theorem State.readByte_writeByte_other (s : State) (a b : Addr) (v : Byte) (h : a ≠ b) :
    (s.writeByte a v).readByte b = s.readByte b := by simp [State.readByte_writeByte, h]

/-- Two offsets less than 4096 apart give two addresses (R51, R57). -/
theorem effAddr_ne (b : Word) {j k : Nat} (h : j < k) (hk : k < 4096) : effAddr b j ≠ effAddr b k := by
  intro e
  have := congrArg BitVec.toNat e
  simp only [effAddr, BitVec.toNat_ofNat] at this
  omega

/-- Storing a list of bytes changes memory and nothing else. -/
theorem State.writeBytes_eq (s : State) (a : Addr) (bs : List Byte) :
    s.writeBytes a bs = { s with mem := (s.writeBytes a bs).mem } := by
  induction bs generalizing s a with
  | nil => rfl
  | cons b bs ih => rw [State.writeBytes, ih]; rfl

/-- Storing a list of bytes keeps the canonical form. -/
theorem State.writeBytes_wf {s : State} (h : Memory.wf s.cfg s.mem = true) (a : Addr) (bs : List Byte) :
    Memory.wf s.cfg (s.writeBytes a bs).mem = true := by
  induction bs generalizing s a with
  | nil => exact h
  | cons b bs ih => exact ih (s := s.writeByte a b) (Memory.write_wf h a b) (a + 1)

end Sys2Proof.Machine
end

