-- ==== Sys2Proof/Laws/Loops.lean ====
section
/-! SUPPORT. What the loops of store-regs and load-regs do (spec/44_memory_ops.md R161, R162), said once. -/

namespace Sys2Proof.Machine

/-- The loop of store-regs changes memory and nothing else. -/
theorem storeRegs_eq (s : State) (n : Nat) :
    forUpTo n State.storeReg s = { s with mem := (forUpTo n State.storeReg s).mem } := by
  induction n with
  | zero => rfl
  | succ n ih => rw [forUpTo, ih]; rfl

/-- The loop of store-regs: the byte at I + k is V[k] for every k stored, every other byte is as before. -/
theorem storeRegs_readByte (s : State) (n : Nat) (hn : n ≤ 16) (a : Addr) :
    (∀ k < n, a = effAddr s.idx k → (forUpTo n State.storeReg s).readByte a = s.v[Fin.ofNat 16 k]) ∧
    ((∀ k < n, a ≠ effAddr s.idx k) → (forUpTo n State.storeReg s).readByte a = s.readByte a) := by
  induction n with
  | zero => exact ⟨fun k hk => absurd hk (Nat.not_lt_zero k), fun _ => rfl⟩
  | succ n ih =>
    obtain ⟨ih1, ih2⟩ := ih (by omega)
    have hv : (forUpTo n State.storeReg s).v = s.v := by rw [storeRegs_eq]
    have hi : (forUpTo n State.storeReg s).idx = s.idx := by rw [storeRegs_eq]
    simp only [forUpTo, State.storeReg, State.readByte_writeByte, hi, State.reg, hv]
    refine ⟨fun k hk e => ?_, fun h => ?_⟩
    · by_cases hkn : k = n
      · subst hkn; simp [e]
      · have hk' : k < n := by omega
        have : effAddr s.idx n ≠ a := fun e' => effAddr_ne s.idx hk' (by omega) (by rw [← e, e'])
        rw [if_neg this]; exact ih1 k hk' e
    · rw [if_neg (Ne.symm (h n (by omega)))]
      exact ih2 fun k hk => h k (by omega)

/-- The loop of store-regs keeps the canonical form of memory. -/
theorem storeRegs_wf {s : State} (h : Memory.wf s.cfg s.mem = true) (n : Nat) :
    Memory.wf s.cfg (forUpTo n State.storeReg s).mem = true := by
  induction n with
  | zero => exact h
  | succ n ih =>
    have hc : (forUpTo n State.storeReg s).cfg = s.cfg := by rw [storeRegs_eq]
    have := Memory.write_wf (c := (forUpTo n State.storeReg s).cfg) (hc ▸ ih)
      (effAddr (forUpTo n State.storeReg s).idx n) ((forUpTo n State.storeReg s).reg (Fin.ofNat 16 n))
    rw [hc] at this
    simpa [forUpTo, State.storeReg, hc] using this

/-- The loop of load-regs changes the registers and nothing else. -/
theorem loadRegs_eq (s : State) (n : Nat) :
    forUpTo n State.fetchReg s = { s with v := (forUpTo n State.fetchReg s).v } := by
  induction n with
  | zero => rfl
  | succ n ih => rw [forUpTo, ih]; rfl

/-- The loop of load-regs: V[k] is the byte at I + k for every k loaded, every other register is as before. -/
theorem loadRegs_reg (s : State) (n : Nat) (hn : n ≤ 16) (r : Reg) :
    (forUpTo n State.fetchReg s).v[r] = if r.val < n then s.readByte (effAddr s.idx r.val) else s.v[r] := by
  induction n with
  | zero => rfl
  | succ n ih =>
    have ih := ih (by omega)
    have hi : (forUpTo n State.fetchReg s).idx = s.idx := by rw [loadRegs_eq]
    have hr : ∀ a, (forUpTo n State.fetchReg s).readByte a = s.readByte a :=
      State.readByte_congr (by rw [loadRegs_eq]) (by rw [loadRegs_eq])
    have hm : n % 16 = n := Nat.mod_eq_of_lt (by omega)
    simp only [forUpTo, State.fetchReg, State.setReg, hi, hr]
    rw [Fin.getElem_fin, Vector.getElem_set]
    simp only [Fin.val_ofNat, hm]
    by_cases h : n = r.val
    · simp [h]
    · rw [if_neg h, ← Fin.getElem_fin, ih]
      by_cases h' : r.val < n
      · simp [h', Nat.lt_succ_of_lt h']
      · have : ¬ r.val < n + 1 := by omega
        simp [h', this]

end Sys2Proof.Machine
end

