-- ==== Sys2Proof/Laws/Exec.lean ====
section
/-! SUPPORT. What an instruction cannot touch, what the call stack's operations do, and what a step can do, said once. -/

namespace Sys2Proof.Machine

/-! ## The call stack (R28) -/

theorem State.push_full (s : State) (a : Addr) (h : s.sp.val = 16) : s.push a = none := by
  simp [State.push, h]

theorem State.push_free (s : State) (a : Addr) (k : Fin 16) (h : s.sp.val = k.val) :
    s.push a = some { s with stack := s.stack.set k a, sp := k.succ } := by
  have hk : s.sp.val < 16 := by omega
  have : (⟨s.sp.val + 1, by omega⟩ : Fin 17) = k.succ := Fin.ext (by simp [h])
  rw [State.push, dif_pos hk, this]
  simp only [h]

theorem State.pop_empty (s : State) (h : s.sp.val = 0) : s.pop = none := by simp [State.pop, h]

theorem State.pop_used (s : State) (k : Fin 16) (h : s.sp.val = k.val + 1) :
    s.pop = some (s.stack[k], { s with sp := k.castSucc }) := by
  have hk : ¬ s.sp.val = 0 := by omega
  have e : s.sp.val - 1 = k.val := by omega
  have : (⟨s.sp.val - 1, by omega⟩ : Fin 17) = k.castSucc := Fin.ext (by simp [e])
  rw [State.pop, dif_neg hk, this]
  simp only [e, Fin.getElem_fin]

/-- The depth is 0 or one more than the index of the most recent entry. -/
theorem State.sp_cases (s : State) : s.sp.val = 0 ∨ ∃ k : Fin 16, s.sp.val = k.val + 1 := by
  rcases Nat.eq_zero_or_pos s.sp.val with h | h
  · exact .inl h
  · exact .inr ⟨⟨s.sp.val - 1, by omega⟩, by simp; omega⟩

/-- The depth is 16 or the index of the next free entry. -/
theorem State.sp_cases' (s : State) : s.sp.val = 16 ∨ ∃ k : Fin 16, s.sp.val = k.val := by
  by_cases h : s.sp.val = 16
  · exact .inl h
  · exact .inr ⟨⟨s.sp.val, by omega⟩, rfl⟩

/-! ## The execute phase -/

/-- No instruction touches the parameters, the batch position, the key latch, the output ports, the key input or the mark
of the loader (R30, R33, R35). -/
structure State.SameSurroundings (s t : State) : Prop where
  cfg : t.cfg = s.cfg
  cyc : t.cyc = s.cyc
  keys : t.keys = s.keys
  outputs : t.outputs = s.outputs
  keyVectors : t.inputs.keyVectors = s.inputs.keyVectors
  loaded : t.loaded = s.loaded

theorem exec_same_surroundings {i : Instr} {s t : State} (h : exec i s = .next t) : s.SameSurroundings t := by
  cases i
  case ret =>
    rcases s.sp_cases with h0 | ⟨k, hk⟩
    · simp only [exec, execRet, s.pop_empty h0, Host.Outcome.next.injEq] at h
      subst h; exact ⟨rfl, rfl, rfl, rfl, rfl, rfl⟩
    · simp only [exec, execRet, s.pop_used k hk, Host.Outcome.next.injEq] at h
      subst h; exact ⟨rfl, rfl, rfl, rfl, rfl, rfl⟩
  case call nnn =>
    rcases s.sp_cases' with h0 | ⟨k, hk⟩
    · simp only [exec, execCall, s.push_full _ h0, Host.Outcome.next.injEq] at h
      subst h; exact ⟨rfl, rfl, rfl, rfl, rfl, rfl⟩
    · simp only [exec, execCall, s.push_free _ k hk, Host.Outcome.next.injEq] at h
      subst h; exact ⟨rfl, rfl, rfl, rfl, rfl, rfl⟩
  case storeRegs x =>
    simp only [exec, execStoreRegs, Host.Outcome.next.injEq] at h
    subst h; rw [storeRegs_eq]; exact ⟨rfl, rfl, rfl, rfl, rfl, rfl⟩
  case loadRegs x =>
    simp only [exec, execLoadRegs, Host.Outcome.next.injEq] at h
    subst h; rw [loadRegs_eq]; exact ⟨rfl, rfl, rfl, rfl, rfl, rfl⟩
  case waitKey x =>
    simp only [exec, execWaitKey, Host.Outcome.next.injEq] at h
    subst h; refine ⟨rfl, rfl, rfl, rfl, ?_, rfl⟩
    dsimp only; split <;> rfl
  case drawSprite x y n =>
    rcases execDrawSprite_cases x y n s with ⟨-, b, -, hx⟩ | ⟨-, -, hx⟩ | ⟨-, -, hx⟩ <;>
      rw [exec, hx] at h <;> cases h <;> exact ⟨rfl, rfl, rfl, rfl, rfl, rfl⟩
  all_goals
    cases h
    exact ⟨rfl, rfl, rfl, rfl, rfl, rfl⟩

/-! ## The step (R95) -/

/-- What a step that answers a next state did: the core was loaded and running, and either the word at pc was unknown
and the fault was taken, or it spelled an instruction, which was executed and the cycle ended. -/
theorem step_cases {s t : State} (h : step s = .next t) :
    (s.halt = none ∧ s.loaded = true) ∧
    ((decodeWord s.fetchWord = none ∧ t = s.beginCycle.advancePc.raise .unknownInstruction s.fetchWord) ∨
      ∃ i u, decodeWord s.fetchWord = some i ∧ exec i s.beginCycle.advancePc = .next u ∧ t = u.endCycle) := by
  unfold step runCycle at h
  split at h
  · cases h
  · rename_i hh
    split at h
    · rename_i hl
      refine ⟨⟨hh, hl⟩, ?_⟩
      simp only [State.fetchWord_beginCycle] at h
      split at h
      · rename_i hd; cases h; exact .inl ⟨hd, rfl⟩
      · rename_i i hd
        split at h
        · rename_i u hu; cases h; exact .inr ⟨i, u, hd, hu, rfl⟩
        · cases h
        · cases h
    · cases h

/-- A step of a halted core. -/
theorem step_halted {s : State} {r : FaultRecord} (h : s.halt = some r) : step s = .fault (.halted r) := by
  simp [step, runCycle, h]

/-- A step of a core that waits for the loader. -/
theorem step_waiting {s : State} (h : s.halt = none) (hl : s.loaded = false) : step s = .fault .notStarted := by
  simp [step, runCycle, h, hl]

/-- A step of a running core on an unknown word. -/
theorem step_unknown {s : State} (h : s.halt = none) (hl : s.loaded = true) (hd : decodeWord s.fetchWord = none) :
    step s = .next (s.beginCycle.advancePc.raise .unknownInstruction s.fetchWord) := by
  simp [step, runCycle, h, hl, hd]

/-- A step of a running core on an instruction. -/
theorem step_decoded {s u : State} {i : Instr} (h : s.halt = none) (hl : s.loaded = true)
    (hd : decodeWord s.fetchWord = some i) (hu : exec i s.beginCycle.advancePc = .next u) :
    step s = .next u.endCycle := by
  simp [step, runCycle, h, hl, hd, hu]

/-! ## Runs -/

theorem run_zero (s : State) : Sys2Proof.core.run 0 s = .next s := rfl

/-- A run that starts with a step to `u` goes on from `u`. -/
theorem run_next {s u : State} (h : step s = .next u) (k : Nat) :
    Sys2Proof.core.run (k + 1) s = Sys2Proof.core.run k u := by
  have h' : Sys2Proof.core.step s = .next u := h
  simp [Host.Core.run, h']

/-- A run that starts with a stop is that stop. -/
theorem run_fault {s : State} {r : Fault} (h : step s = .fault r) (k : Nat) :
    Sys2Proof.core.run (k + 1) s = .fault r := by
  have h' : Sys2Proof.core.step s = .fault r := h
  simp [Host.Core.run, h']

/-- A run of one step or more that answers a next state begins with a step. -/
theorem run_succ_cases {s t : State} {k : Nat} (h : Sys2Proof.core.run (k + 1) s = .next t) :
    ∃ u, step s = .next u ∧ Sys2Proof.core.run k u = .next t := by
  cases hs : Sys2Proof.core.step s with
  | next u => exact ⟨u, hs, by simpa [Host.Core.run, hs] using h⟩
  | fault r => simp [Host.Core.run, hs] at h
  | refused r => simp [Host.Core.run, hs] at h

/-! ## The end of a cycle -/

/-- The end of a cycle that faulted. -/
theorem State.endCycle_fault {s : State} {r : FaultRecord} (h : s.halt = some r) : s.endCycle = s := by
  simp [State.endCycle, h]

/-- The end of a cycle that did not fault. -/
theorem State.endCycle_running {s : State} (h : s.halt = none) :
    s.endCycle =
      { s with
        dt := if s.cyc + 1 = s.cfg.cyclesPerTick then countDown s.dt else s.dt
        st := if s.cyc + 1 = s.cfg.cyclesPerTick then countDown s.st else s.st
        dirty := false
        cyc := if s.cyc + 1 = s.cfg.cyclesPerTick then 0 else s.cyc + 1
        outputs := {
          render := if s.dirty then some s.disp else s.outputs.render
          cue := if s.cyc + 1 = s.cfg.cyclesPerTick then s.outputs.cue || decide (s.st = 1)
            else s.outputs.cue } } := by
  by_cases hc : s.cyc + 1 = s.cfg.cyclesPerTick <;>
    simp [State.endCycle, h, State.countCycle, State.handOff, State.tick, hc]

/-- What the end of a cycle never touches. -/
theorem State.endCycle_same (s : State) :
    s.endCycle.cfg = s.cfg ∧ s.endCycle.v = s.v ∧ s.endCycle.idx = s.idx ∧ s.endCycle.pc = s.pc ∧
    s.endCycle.stack = s.stack ∧ s.endCycle.sp = s.sp ∧ s.endCycle.mem = s.mem ∧ s.endCycle.disp = s.disp ∧
    s.endCycle.keys = s.keys ∧ s.endCycle.halt = s.halt ∧ s.endCycle.inputs = s.inputs ∧
    s.endCycle.loaded = s.loaded := by
  cases h : s.halt with
  | none => simp [State.endCycle_running h, h]
  | some r => simp [State.endCycle_fault h, h]

/-- Counting down by one with a floor of zero (R211). -/
theorem countDown_toNat (b : Byte) : (countDown b).toNat = b.toNat - 1 := by
  unfold countDown
  split
  · rename_i h; subst h; rfl
  · rename_i h
    have : b.toNat ≠ 0 := fun e => h (BitVec.eq_of_toNat_eq (by simpa using e))
    have := b.isLt
    rw [BitVec.toNat_sub]
    simp; omega

end Sys2Proof.Machine
end

