-- ==== Sys2Proof/Laws/Flags.lean ====
section
/-! SUPPORT. What each flag computation answers, as the number the spec writes (spec/42_alu.md R136 to R140,
spec/43_index.md R151). -/

namespace Sys2Proof.Machine

/-- A flag is 0x00 or 0x01 (R22). -/
theorem flagByte_cases (p : Bool) : flagByte p = 0 ∨ flagByte p = 1 := by cases p <;> simp [flagByte]

theorem flagByte_decide (p : Prop) [Decidable p] : flagByte (decide p) = if p then 1 else 0 := by
  by_cases h : p <;> simp [flagByte, h]

theorem carryFlag_eq (a b : Byte) : carryFlag a b = if a.toNat + b.toNat > 255 then 1 else 0 :=
  flagByte_decide _

theorem notBorrowFlag_eq (a b : Byte) : notBorrowFlag a b = if b.toNat > a.toNat then 0 else 1 := by
  by_cases h : b.toNat > a.toNat <;> simp [notBorrowFlag, flagByte, h]

theorem shiftedOutLow_eq : ∀ a : Byte, shiftedOutLow a = BitVec.ofNat 8 (a.toNat % 2) := by decide

theorem shiftedOutHigh_eq : ∀ a : Byte, shiftedOutHigh a = BitVec.ofNat 8 (a.toNat / 128) := by decide

theorem indexFlag_eq (i : Word) (b : Byte) :
    indexFlag i b = if i.toNat + b.toNat > 0x0FFF then 1 else 0 := flagByte_decide _

/-- A byte difference as the number R137 writes: mod 256. -/
theorem sub_eq_mod (a b : Byte) : a - b = BitVec.ofNat 8 ((256 + a.toNat - b.toNat) % 256) := by
  apply BitVec.eq_of_toNat_eq
  rw [BitVec.toNat_sub, BitVec.toNat_ofNat]
  omega

end Sys2Proof.Machine
end

