-- ==== Sys2Proof/Laws/Operands.lean ====
section
/-! SUPPORT. What the operand forms answer: keys, the pressed keys, addresses. -/

namespace Sys2Proof.Machine

/-- The key a register selects is V[x] mod 16 (R122). -/
theorem State.keyOf_eq (s : State) (x : Reg) (k : Key) (h : k.val = s.v[x].toNat % 16) : s.keyOf x = k := by
  apply Fin.ext
  rw [h]
  simp [State.keyOf, State.reg]

/-- The pressed keys are those whose flag is set (R30). -/
theorem mem_pressedKeys (keys : KeyVector) (k : Key) : k ∈ pressedKeys keys ↔ keys[k] = true := by
  simp [pressedKeys]

/-- No key is pressed iff the list is empty. -/
theorem pressedKeys_isEmpty (keys : KeyVector) :
    (pressedKeys keys).isEmpty = true ↔ ¬ ∃ k : Key, keys[k] = true := by
  simp [pressedKeys, List.filter_eq_nil_iff, List.isEmpty_iff]

/-- The pressed keys are listed once each. -/
theorem pressedKeys_nodup (keys : KeyVector) : (pressedKeys keys).Nodup :=
  (List.nodup_finRange 16).filter _

/-- Whatever the choice, the key delivered is one of the pressed ones (R171). -/
theorem pickKey_mem (ks : List Key) (c : Nat) (h : ks ≠ []) : pickKey ks c ∈ ks := by
  match ks with
  | [] => exact absurd rfl h
  | [k] => simp [pickKey]
  | k :: k' :: rest =>
    have hlt : c % (rest.length + 2) < (k :: k' :: rest).length := Nat.mod_lt _ (by omega)
    simp only [pickKey]
    rw [List.getElem?_eq_getElem hlt, Option.getD_some]
    exact List.getElem_mem hlt

/-- An offset below 4096 from an address, as a number. -/
theorem ofNat_add_eq (a : Addr) (k : Nat) : BitVec.ofNat 12 (a.toNat + k) = a + BitVec.ofNat 12 k := by
  apply BitVec.eq_of_toNat_eq
  simp

end Sys2Proof.Machine
end

