-- ==== Sys2Proof/Laws/PerInstr.lean ====
section
/-! SUPPORT. The statements made for every instruction, one lemma per constructor. -/

namespace Sys2Proof

/-! ## Masking a format, field by field -/

theorem formatA_mask (op : BitVec 4) (nnn : Addr) : formatA op nnn &&& 0xF000 = formatA op 0 := by
  have : (0xF000 : Word) = (BitVec.allOnes 4 ++ 0#12 : BitVec 16) := rfl
  rw [formatA, this, BitVec.and_append, BitVec.and_allOnes, BitVec.and_zero]; rfl

theorem formatXK_mask (op : BitVec 4) (x : Reg) (kk : Byte) :
    formatXK op x kk &&& 0xF000 = formatXK op 0 0 := by
  have : (0xF000 : Word) = (BitVec.allOnes 4 ++ 0#4 ++ 0#8 : BitVec 16) := rfl
  rw [formatXK, this, BitVec.and_append, BitVec.and_append, BitVec.and_allOnes, BitVec.and_zero,
    BitVec.and_zero]; rfl

theorem formatXK_mask_kk (op : BitVec 4) (x : Reg) (kk : Byte) :
    formatXK op x kk &&& 0xF0FF = formatXK op 0 kk := by
  have : (0xF0FF : Word) = (BitVec.allOnes 4 ++ 0#4 ++ BitVec.allOnes 8 : BitVec 16) := rfl
  rw [formatXK, this, BitVec.and_append, BitVec.and_append, BitVec.and_allOnes, BitVec.and_zero,
    BitVec.and_allOnes]; rfl

theorem formatXYN_mask (op : BitVec 4) (x : Reg) (y n : BitVec 4) :
    formatXYN op x y n &&& 0xF000 = formatXYN op 0 0 0 := by
  have : (0xF000 : Word) = (BitVec.allOnes 4 ++ 0#4 ++ 0#4 ++ 0#4 : BitVec 16) := rfl
  rw [formatXYN, this, BitVec.and_append, BitVec.and_append, BitVec.and_append, BitVec.and_allOnes,
    BitVec.and_zero, BitVec.and_zero, BitVec.and_zero]; rfl

theorem formatXYN_mask_n (op : BitVec 4) (x : Reg) (y n : BitVec 4) :
    formatXYN op x y n &&& 0xF00F = formatXYN op 0 0 n := by
  have : (0xF00F : Word) = (BitVec.allOnes 4 ++ 0#4 ++ 0#4 ++ BitVec.allOnes 4 : BitVec 16) := rfl
  rw [formatXYN, this, BitVec.and_append, BitVec.and_append, BitVec.and_append, BitVec.and_allOnes,
    BitVec.and_zero, BitVec.and_zero, BitVec.and_allOnes]; rfl

end Sys2Proof

namespace Sys2Proof.Laws.EncodesInItsRow

/-- The word of an instruction has its row's match under its row's mask (R75). -/
def Statement (i : Instr) : Prop := encode i &&& i.row.mask = i.row.pattern

theorem clearScreen : Statement .clearScreen := rfl
theorem ret : Statement .ret := rfl
theorem jump (nnn : Addr) : Statement (.jump nnn) := formatA_mask _ _
theorem call (nnn : Addr) : Statement (.call nnn) := formatA_mask _ _
theorem skipEqImm (x : Reg) (kk : Byte) : Statement (.skipEqImm x kk) := formatXK_mask _ _ _
theorem skipNeqImm (x : Reg) (kk : Byte) : Statement (.skipNeqImm x kk) := formatXK_mask _ _ _
theorem skipEqReg (x y : Reg) (g : BitVec 4) : Statement (.skipEqReg x y g) := formatXYN_mask _ _ _ _
theorem skipNeqReg (x y : Reg) (g : BitVec 4) : Statement (.skipNeqReg x y g) := formatXYN_mask _ _ _ _
theorem skipKey (x : Reg) : Statement (.skipKey x) := formatXK_mask_kk _ _ _
theorem skipNokey (x : Reg) : Statement (.skipNokey x) := formatXK_mask_kk _ _ _
theorem jumpIndexed (nnn : Addr) : Statement (.jumpIndexed nnn) := formatA_mask _ _
theorem loadImm (x : Reg) (kk : Byte) : Statement (.loadImm x kk) := formatXK_mask _ _ _
theorem addImm (x : Reg) (kk : Byte) : Statement (.addImm x kk) := formatXK_mask _ _ _
theorem loadReg (x y : Reg) : Statement (.loadReg x y) := formatXYN_mask_n _ _ _ _
theorem orReg (x y : Reg) : Statement (.orReg x y) := formatXYN_mask_n _ _ _ _
theorem andReg (x y : Reg) : Statement (.andReg x y) := formatXYN_mask_n _ _ _ _
theorem xorReg (x y : Reg) : Statement (.xorReg x y) := formatXYN_mask_n _ _ _ _
theorem addReg (x y : Reg) : Statement (.addReg x y) := formatXYN_mask_n _ _ _ _
theorem subReg (x y : Reg) : Statement (.subReg x y) := formatXYN_mask_n _ _ _ _
theorem shiftRight (x : Reg) (g : BitVec 4) : Statement (.shiftRight x g) := formatXYN_mask_n _ _ _ _
theorem subRegReverse (x y : Reg) : Statement (.subRegReverse x y) := formatXYN_mask_n _ _ _ _
theorem shiftLeft (x : Reg) (g : BitVec 4) : Statement (.shiftLeft x g) := formatXYN_mask_n _ _ _ _
theorem loadIndex (nnn : Addr) : Statement (.loadIndex nnn) := formatA_mask _ _
theorem addIndex (x : Reg) : Statement (.addIndex x) := formatXK_mask_kk _ _ _
theorem loadFontPtr (x : Reg) : Statement (.loadFontPtr x) := formatXK_mask_kk _ _ _
theorem storeBcd (x : Reg) : Statement (.storeBcd x) := formatXK_mask_kk _ _ _
theorem storeRegs (x : Reg) : Statement (.storeRegs x) := formatXK_mask_kk _ _ _
theorem loadRegs (x : Reg) : Statement (.loadRegs x) := formatXK_mask_kk _ _ _
theorem readDelay (x : Reg) : Statement (.readDelay x) := formatXK_mask_kk _ _ _
theorem waitKey (x : Reg) : Statement (.waitKey x) := formatXK_mask_kk _ _ _
theorem setDelay (x : Reg) : Statement (.setDelay x) := formatXK_mask_kk _ _ _
theorem setSound (x : Reg) : Statement (.setSound x) := formatXK_mask_kk _ _ _
theorem randomAnd (x : Reg) (kk : Byte) : Statement (.randomAnd x kk) := formatXK_mask _ _ _
theorem drawSprite (x y : Reg) (n : Nat) : Statement (.drawSprite x y n) := formatXYN_mask _ _ _ _

end Sys2Proof.Laws.EncodesInItsRow
end

