-- ==== Sys2Proof/Tests/Slice0.lean ====
section
/-! SUPPORT. The model's own tests and the witnesses of the statements' hypotheses.  Expected results are those of
spec/95_test_vectors.md (the section is named at each group), which that file derives from the rules by hand. -/

namespace Sys2Proof.Tests

open Sys2Proof Sys2Proof.Machine

/-! ## Well-formedness -/

/-- The one ill-formed term: a sprite of 16 rows does not fit the field n (R72), and is refused. -/
theorem test_sprite_height_16_is_ill_formed : (Instr.drawSprite 0 0 16).wellFormed = false := by decide

theorem test_sprite_height_15_is_well_formed : (Instr.drawSprite 0 0 15).wellFormed = true := by decide

/-! ## Decoding: words written out from the encodings (95_test_vectors.md 2.1) -/

theorem test_decode_control :
    [0x00E0, 0x00EE, 0x1FFF, 0x2ABC, 0x3A7F, 0x4A7F, 0x5120, 0x512F, 0x9AB0, 0x9AB7, 0xE39E, 0xE3A1, 0xB123].map
      (decodeTableWord 16) =
    [some .clearScreen, some .ret, some (.jump 0xFFF), some (.call 0xABC), some (.skipEqImm 0xA 0x7F),
      some (.skipNeqImm 0xA 0x7F), some (.skipEqReg 1 2 0), some (.skipEqReg 1 2 0xF), some (.skipNeqReg 0xA 0xB 0),
      some (.skipNeqReg 0xA 0xB 7), some (.skipKey 3), some (.skipNokey 3), some (.jumpIndexed 0x123)] := by decide

theorem test_decode_alu :
    [0x6A2C, 0x7A01, 0x8AB0, 0x8AB1, 0x8AB2, 0x8AB3, 0x8AB4, 0x8AB5, 0x8AB6, 0x8AB7, 0x8ABE, 0x8A06, 0x8AFE].map
      (decodeTableWord 16) =
    [some (.loadImm 0xA 0x2C), some (.addImm 0xA 1), some (.loadReg 0xA 0xB), some (.orReg 0xA 0xB),
      some (.andReg 0xA 0xB), some (.xorReg 0xA 0xB), some (.addReg 0xA 0xB), some (.subReg 0xA 0xB),
      some (.shiftRight 0xA 0xB), some (.subRegReverse 0xA 0xB), some (.shiftLeft 0xA 0xB),
      some (.shiftRight 0xA 0), some (.shiftLeft 0xA 0xF)] := by decide

theorem test_decode_others :
    [0xA123, 0xF31E, 0xF329, 0xF333, 0xF355, 0xF365, 0xF307, 0xF30A, 0xF315, 0xF318, 0xC1F0, 0xD120, 0xD12A].map
      (decodeTableWord 16) =
    [some (.loadIndex 0x123), some (.addIndex 3), some (.loadFontPtr 3), some (.storeBcd 3), some (.storeRegs 3),
      some (.loadRegs 3), some (.readDelay 3), some (.waitKey 3), some (.setDelay 3), some (.setSound 3),
      some (.randomAnd 1 0xF0), some (.drawSprite 1 2 0), some (.drawSprite 1 2 0xA)] := by decide

theorem test_unknown_words :
    [0x0000, 0x00E1, 0x00EF, 0x01E0, 0x0FE0, 0x01EE, 0x0200, 0x8AB8, 0x8ABD, 0x8ABF, 0xE09F, 0xE1A2, 0xEF9D, 0xF000,
      0xF008, 0xF030, 0xF075, 0xFFFF].all (fun w => decodeTableWord 16 w == none) = true := by decide

theorem test_encode_words :
    encode (.drawSprite 0xD 1 2) = 0xD012 + 0x0D00 ∧ encode (.skipNeqReg 1 2 7) = 0x9127 ∧
    encode (.shiftLeft 0xF 0) = 0x8F0E ∧ encode (.jumpIndexed 0x0FE) = 0xB0FE := by decide

/-! ## One step of each instruction (95_test_vectors.md 2.2 to 2.10) -/

/-- What the host presents: no key is pressed at the first refresh, and the first random byte is B7. -/
def host : Inputs := { keyVectors := [Vector.replicate 16 false], randomBytes := [0xB7], picks := [1], fresh := 0 }

/-- The state after reset, in which the core waits for the loader. -/
def waiting : State := .resetFor .default host

/-- The launch state of R231, but for the ROM's bytes. -/
def launch : State := { waiting with loaded := true }

/-- The launch state under an edge policy that is not this hardware's. -/
def launchUnder (e : EdgePolicy) : State := { launch with cfg := { Config.default with drawEdge := e } }

/-- The launch state in the middle of a batch, with the given keys pressed. -/
def keysDown (ks : List Key) : State :=
  { launch with cyc := 1, keys := Vector.ofFn fun k => ks.contains k }

/-- Give some registers their values. -/
def regs (l : List (Reg × Byte)) (s : State) : State := l.foldl (fun s p => s.setReg p.1 p.2) s

/-- What holds after one step on the word `w`, placed where `s` fetches. -/
def stepped (w : Nat) (s : State) (p : State → Bool) : Bool :=
  match step (s.withFetchWord 16 w) with
  | .next t => p t
  | _ => false

/-- One cell of the display. -/
def cell (t : State) (x : Fin 64) (y : Fin 32) : Bool := t.disp[y][x]

theorem test_clear_screen :
    stepped 0x00E0 { regs [(15, 1)] launch with disp := blankDisplay.set 3 (Vector.replicate 64 true) }
      (fun t => !cell t 5 3 && !cell t 63 3 && t.v[15] == 1 && t.outputs.render.isSome && t.pc == 0x202) = true := by
  decide

theorem test_return :
    stepped 0x00EE { launch with pc := 0x300, sp := 2, stack := (launch.stack.set 0 0x202).set 1 0x250 }
      (fun t => t.sp == 1 && t.pc == 0x252 && t.stack[0] == 0x202) = true := by decide

theorem test_return_empty_faults :
    stepped 0x00EE { launch with pc := 0x300 }
      (fun t => t.halt == some ⟨.stackUnderflow, 0x300, 0x00EE⟩ && t.pc == 0x300 && t.cyc == 0) = true := by decide

theorem test_jump : stepped 0x1234 launch (fun t => t.pc == 0x234) = true := by decide

theorem test_call :
    stepped 0x2300 { launch with pc := 0x202, sp := 15 }
      (fun t => t.stack[15] == 0x202 && t.sp == 16 && t.pc == 0x300) = true := by decide

theorem test_call_full_faults :
    stepped 0x2300 { launch with pc := 0x202, sp := 16 }
      (fun t => t.halt == some ⟨.stackOverflow, 0x202, 0x2300⟩ && t.pc == 0x202 && t.sp == 16) = true := by decide

theorem test_skip_eq_imm : stepped 0x332A (regs [(3, 0x2A)] launch) (fun t => t.pc == 0x204) = true := by decide

theorem test_skip_eq_imm_not : stepped 0x332B (regs [(3, 0x2A)] launch) (fun t => t.pc == 0x202) = true := by decide

theorem test_skip_neq_imm : stepped 0x432B (regs [(3, 0x2A)] launch) (fun t => t.pc == 0x204) = true := by decide

theorem test_skip_eq_reg :
    stepped 0x512F (regs [(1, 7), (2, 7)] launch) (fun t => t.pc == 0x204) = true := by decide

theorem test_skip_neq_reg :
    stepped 0x9120 (regs [(1, 7), (2, 8)] launch) (fun t => t.pc == 0x204) = true := by decide

theorem test_skip_neq_reg_same : stepped 0x9330 launch (fun t => t.pc == 0x202) = true := by decide

theorem test_skip_key_low_bits :
    stepped 0xE09E (regs [(0, 0x14)] (keysDown [4])) (fun t => t.pc == 0x204) = true := by decide

theorem test_skip_key_other :
    stepped 0xE09E (regs [(0, 4)] (keysDown [5])) (fun t => t.pc == 0x202) = true := by decide

theorem test_skip_nokey :
    stepped 0xE0A1 (regs [(0, 0xF4)] (keysDown [4])) (fun t => t.pc == 0x202) = true := by decide

theorem test_jump_indexed_wraps :
    stepped 0xBFFF (regs [(0, 0xFF)] launch) (fun t => t.pc == 0x0FE) = true := by decide

theorem test_load_imm_wraps_pc :
    stepped 0x6A2C { launch with pc := 0xFFE } (fun t => t.pc == 0x000 && t.v[10] == 0x2C) = true := by decide

theorem test_add_imm : stepped 0x7201 (regs [(2, 0xFF), (15, 1)] launch)
    (fun t => t.v[2] == 0 && t.v[15] == 1) = true := by decide

theorem test_load_reg : stepped 0x8010 (regs [(1, 0x55)] launch) (fun t => t.v[0] == 0x55) = true := by decide

theorem test_or : stepped 0x8011 (regs [(0, 0xF0), (1, 0x0F)] launch) (fun t => t.v[0] == 0xFF) = true := by decide

theorem test_and : stepped 0x8012 (regs [(0, 0xF0), (1, 0x3C)] launch) (fun t => t.v[0] == 0x30) = true := by decide

theorem test_xor : stepped 0x8013 (regs [(0, 0xF0), (1, 0x3C)] launch) (fun t => t.v[0] == 0xCC) = true := by decide

theorem test_add_reg : stepped 0x8014 (regs [(0, 0xFF), (1, 1)] launch)
    (fun t => t.v[0] == 0 && t.v[15] == 1) = true := by decide

theorem test_add_reg_flag_destination : stepped 0x8F14 (regs [(15, 0x10), (1, 0x20)] launch)
    (fun t => t.v[15] == 0x30) = true := by decide

theorem test_sub_reg : stepped 0x8015 (regs [(0, 5), (1, 0xA)] launch)
    (fun t => t.v[0] == 0xFB && t.v[15] == 0) = true := by decide

theorem test_sub_reg_equal : stepped 0x8015 (regs [(0, 7), (1, 7)] launch)
    (fun t => t.v[0] == 0 && t.v[15] == 1) = true := by decide

theorem test_sub_reg_reverse : stepped 0x8017 (regs [(0, 5), (1, 0xA)] launch)
    (fun t => t.v[0] == 5 && t.v[15] == 1) = true := by decide

theorem test_shift_right : stepped 0x8016 (regs [(0, 5), (1, 0xFF)] launch)
    (fun t => t.v[0] == 2 && t.v[15] == 1 && t.v[1] == 0xFF) = true := by decide

theorem test_shift_left : stepped 0x800E (regs [(0, 0x81)] launch)
    (fun t => t.v[0] == 2 && t.v[15] == 1) = true := by decide

theorem test_load_index : stepped 0xA2F0 { launch with idx := 0xFFFF } (fun t => t.idx == 0x02F0) = true := by decide

theorem test_add_index : stepped 0xF21E { regs [(2, 5)] launch with idx := 0x0FFE }
    (fun t => t.idx == 0x1003 && t.v[15] == 1) = true := by decide

theorem test_add_index_no_flag : stepped 0xFF1E { regs [(15, 5)] launch with idx := 0x0300 }
    (fun t => t.idx == 0x0305 && t.v[15] == 0) = true := by decide

theorem test_load_font_ptr : stepped 0xF329 (regs [(3, 0xFF)] launch) (fun t => t.idx == 0x04FB) = true := by decide

theorem test_store_bcd_wraps : stepped 0xF533 { regs [(5, 156)] launch with idx := 0x0FFE }
    (fun t => t.readByte 0xFFE == 1 && t.readByte 0xFFF == 5 && t.readByte 0 == 6 && t.idx == 0x0FFE) = true := by
  decide

theorem test_store_regs : stepped 0xF255 { regs [(0, 0x11), (1, 0x22), (2, 0x33), (3, 0x44)] launch with idx := 0x1400 }
    (fun t => t.readByte 0x400 == 0x11 && t.readByte 0x402 == 0x33 && t.readByte 0x403 == 0) = true := by decide

theorem test_load_regs_font : stepped 0xF265 (regs [(3, 0xEE)] launch)
    (fun t => t.v[0] == 0xF0 && t.v[1] == 0x90 && t.v[2] == 0x90 && t.v[3] == 0xEE) = true := by decide

theorem test_read_delay : stepped 0xF407 { launch with dt := 0x3C }
    (fun t => t.v[4] == 0x3C && t.dt == 0x3C) = true := by decide

theorem test_set_delay : stepped 0xF115 (regs [(1, 0xA)] launch) (fun t => t.dt == 0xA) = true := by decide

theorem test_set_sound : stepped 0xF118 (regs [(1, 2)] launch)
    (fun t => t.st == 2 && !t.outputs.cue) = true := by decide

theorem test_tick_cue : stepped 0x6000 { launch with cyc := 19, dt := 0, st := 1 }
    (fun t => t.st == 0 && t.dt == 0 && t.cyc == 0 && t.outputs.cue) = true := by decide

theorem test_wait_key_retries : stepped 0xF30A { launch with pc := 0x210 }
    (fun t => t.pc == 0x210 && t.v[3] == 0 && t.cyc == 1) = true := by decide

theorem test_wait_key_delivers : stepped 0xF30A { keysDown [7] with pc := 0x210 }
    (fun t => t.pc == 0x212 && t.v[3] == 7) = true := by decide

theorem test_random_and : stepped 0xC20F launch
    (fun t => t.v[2] == 7 && t.inputs.randomBytes == []) = true := by decide

theorem test_draw_sprite_clips_and_collides :
    stepped 0xD011 { (regs [(0, 0x3C)] launch).writeByte 0x300 0xFF with
        idx := 0x300, disp := blankDisplay.set 0 ((Vector.replicate 64 false).set 63 true) }
      (fun t => cell t 60 0 && cell t 62 0 && !cell t 63 0 && !cell t 0 0 && !cell t 0 1 && t.v[15] == 1) = true := by
  decide

theorem test_draw_sprite_bit_order :
    stepped 0xD012 { ((regs [(0, 0xA), (1, 5)] launch).writeByte 0x300 0x81).writeByte 0x301 0x42 with idx := 0x300 }
      (fun t => cell t 10 5 && cell t 17 5 && cell t 11 6 && cell t 16 6 && !cell t 11 5 && t.v[15] == 0) = true := by
  decide

/-- R186: under wrap column 64 is column 0 of the same row, under replicate column 0 of the next row, and in the last row
there is no next. -/
theorem test_pixel_cells_off_the_grid :
    [pixelCell .clip 64 30, pixelCell .clip 63 31, pixelCell .wrap 64 31, pixelCell .wrap 262 32,
      pixelCell .replicate 64 30, pixelCell .replicate 64 31, pixelCell .replicate 63 31] =
    [none, some (63, 31), some (0, 31), some (6, 0), some (0, 31), none, some (63, 31)] := by decide

/-- R7: under the policy fault the sprite FF at column 57 puts its last pixel off the grid, and nothing is drawn. -/
theorem test_draw_sprite_faults :
    stepped 0xD011 { (regs [(0, 57)] (launchUnder .fault)).writeByte 0x300 0xFF with idx := 0x300 }
      (fun t => t.halt == some ⟨.spriteOffGrid, 0x200, 0xD011⟩ && t.pc == 0x200 && !cell t 57 0) = true := by decide

/-- R186: under replicate a pixel past the last cell has no defined meaning. -/
theorem test_draw_sprite_overrun_is_refused :
    (match exec (.drawSprite 0 1 1)
        (regs [(0, 57), (1, 31)] { (launchUnder .replicate).writeByte 0x300 0xFF with idx := 0x300 }) with
      | .refused r => r == .spriteOverrun
      | _ => false) = true := by decide

theorem test_unknown_word_faults :
    stepped 0x8018 { launch with pc := 0x202, cyc := 1 }
      (fun t => t.halt == some ⟨.unknownInstruction, 0x202, 0x8018⟩ && t.pc == 0x202 && t.cyc == 1) = true := by decide

/-- R232: with nothing loaded the core never starts. -/
theorem test_reset_waits : step State.reset = .fault .notStarted := rfl

/-- R100, R231: a load puts the ROM's first word where the first fetch reads. -/
theorem test_load_starts :
    (match waiting.load [0x6A, 0x2C] with
      | .next t => t.fetchWord == 0x6A2C && t.loaded
      | _ => false) = true := by decide

/-- The reset state of the interface runs a word placed where it fetches (log 11). -/
theorem test_step_from_reset : stepped 0x8014 State.reset (fun t => t.pc == 0x202) = true := by decide

/-! ## Witnesses: a concrete state and operands that meet all the hypotheses of a statement

One theorem for each statement that has hypotheses, named after it, and one more for each further clause. -/

/-- The word `w` placed where `s` fetches. -/
def placed (w : Nat) (s : State) : State := s.withFetchWord 16 w

/-- A checked step is a step. -/
theorem step_of_stepped {w : Nat} {s : State} {p : State → Bool} (h : stepped w s p = true) :
    ∃ t, step (placed w s) = .next t ∧ p t = true := by
  unfold stepped at h
  unfold placed
  split at h
  · exact ⟨_, by assumption, h⟩
  · cases h

theorem witness_DecodingAnEncodedInstructionGivesItBack : (Instr.drawSprite 15 15 15).WellFormed := by decide

theorem witness_EncodingADecodedWordGivesItBack : decodeWord 0x9AB7 = some (.skipNeqReg 0xA 0xB 7) := by decide

theorem witness_UnknownWordsAreExactlyTheListedOnesAndFault :
    (placed 0x8ABF launch).halt = none ∧ (placed 0x8ABF launch).loaded = true ∧ decodeWord (placed 0x8ABF launch).fetchWord = none := by decide

/-- At the last address, where the instruction's second byte is at 0x000 (the font's F0). -/
theorem witness_AStepRunsTheInstructionAtPc :
    let s := (State.writeByte { launch with pc := 0xFFF } 0xFFF 0x60)
    s.halt = none ∧ s.loaded = true ∧ decodeWord (wordOfBytes (s.readByte s.pc) (s.readByte (BitVec.ofNat 12 (s.pc.toNat + 1)))) =
      some (.loadImm 0 0xF0) := by decide

theorem witness_AHaltedCoreStaysStopped :
    ({ launch with halt := some ⟨.stackUnderflow, 0x200, 0x00EE⟩ } : State).halt =
      some ⟨.stackUnderflow, 0x200, 0x00EE⟩ := rfl

/-- Under the policy of this hardware; and a draw at the last cell under replicate, which does not overrun. -/
theorem witness_EveryInstructionAndEveryRunningStepCompletes :
    launch.halt = none ∧ launch.loaded = true ∧ launch.cfg.drawEdge ≠ .replicate ∧
    ¬ Stmt.Overruns (.drawSprite 0 1 1)
      (regs [(0, 56), (1, 31)] { (launchUnder .replicate).writeByte 0x300 0xFF with idx := 0x300 }) := by
  refine ⟨rfl, rfl, by decide, ?_⟩
  rintro ⟨-, x, y, n, e, h⟩
  cases e
  revert h
  decide

theorem witness_FaultsArePreciseAndOfExactlyThreeCauses_unknown :
    ∃ s t, s.halt = none ∧ step s = .next t ∧ t.halt = some ⟨.unknownInstruction, 0x200, 0xFFFF⟩ := by
  obtain ⟨t, h, e⟩ := step_of_stepped
    (show stepped 0xFFFF launch (fun t => t.halt == some ⟨.unknownInstruction, 0x200, 0xFFFF⟩) = true by decide)
  exact ⟨_, t, rfl, h, by simpa using e⟩

theorem witness_FaultsArePreciseAndOfExactlyThreeCauses_overflow :
    ∃ s t, s.halt = none ∧ step s = .next t ∧ t.halt = some ⟨.stackOverflow, 0x200, 0x2ABC⟩ := by
  obtain ⟨t, h, e⟩ := step_of_stepped
    (show stepped 0x2ABC { launch with sp := 16 } (fun t => t.halt == some ⟨.stackOverflow, 0x200, 0x2ABC⟩) = true by
      decide)
  exact ⟨_, t, rfl, h, by simpa using e⟩

theorem witness_FaultsArePreciseAndOfExactlyThreeCauses_underflow :
    ∃ s t, s.halt = none ∧ step s = .next t ∧ t.halt = some ⟨.stackUnderflow, 0x200, 0x00EE⟩ := by
  obtain ⟨t, h, e⟩ := step_of_stepped
    (show stepped 0x00EE launch (fun t => t.halt == some ⟨.stackUnderflow, 0x200, 0x00EE⟩) = true by decide)
  exact ⟨_, t, rfl, h, by simpa using e⟩

/-- The fourth cause, under the policy that has it. -/
theorem witness_FaultsArePreciseAndOfExactlyThreeCauses_offGrid :
    ∃ s t, s.halt = none ∧ step s = .next t ∧ t.halt = some ⟨.spriteOffGrid, 0x200, 0xD011⟩ := by
  obtain ⟨t, h, e⟩ := step_of_stepped
    (show stepped 0xD011 { (regs [(0, 57)] (launchUnder .fault)).writeByte 0x300 0xFF with idx := 0x300 }
      (fun t => t.halt == some ⟨.spriteOffGrid, 0x200, 0xD011⟩) = true by decide)
  exact ⟨_, t, rfl, h, by simpa using e⟩

theorem witness_KeysAreRefreshedExactlyAtTheStartOfABatch_start :
    ∃ s t, step s = .next t ∧ s.cyc = 0 ∧ s.inputs.keyVectors = Vector.replicate 16 false :: [] := by
  obtain ⟨t, h, -⟩ := step_of_stepped (show stepped 0x6000 launch (fun _ => true) = true by decide)
  exact ⟨_, t, h, rfl, rfl⟩

theorem witness_KeysAreRefreshedExactlyAtTheStartOfABatch_later : ∃ s t, step s = .next t ∧ s.cyc ≠ 0 := by
  obtain ⟨t, h, -⟩ := step_of_stepped (show stepped 0x6000 (keysDown [15]) (fun _ => true) = true by decide)
  exact ⟨_, t, h, by decide⟩

theorem witness_TheDisplayIsHandedOffExactlyAfterDrawAndClear :
    ∃ s t, s.halt = none ∧ s.dirty = false ∧ step s = .next t ∧
      decodeWord s.fetchWord = some .clearScreen := by
  obtain ⟨t, h, -⟩ := step_of_stepped (show stepped 0x00E0 launch (fun _ => true) = true by decide)
  exact ⟨_, t, rfl, rfl, h, by decide⟩

/-- The N-th cycle of a batch. -/
theorem witness_CyclesAreCountedAndTheNthTicks_tick :
    ∃ s t, s.halt = none ∧ step s = .next t ∧ decodeWord s.fetchWord = some (.setSound 1) ∧ t.halt = none ∧
      s.cyc + 1 = s.cfg.cyclesPerTick := by
  obtain ⟨t, h, e⟩ := step_of_stepped
    (show stepped 0xF118 { launch with cyc := 19 } (fun t => t.halt == none) = true by decide)
  exact ⟨_, t, rfl, h, by decide, by simpa using e, rfl⟩

/-- The cycle before the N-th. -/
theorem witness_CyclesAreCountedAndTheNthTicks_noTick :
    ∃ s t, s.halt = none ∧ step s = .next t ∧ decodeWord s.fetchWord = some (.setDelay 1) ∧ t.halt = none ∧
      s.cyc + 1 ≠ s.cfg.cyclesPerTick := by
  obtain ⟨t, h, e⟩ := step_of_stepped
    (show stepped 0xF115 { launch with cyc := 18 } (fun t => t.halt == none) = true by decide)
  exact ⟨_, t, rfl, h, by decide, by simpa using e, by decide⟩

/-- A cycle that faults. -/
theorem witness_CyclesAreCountedAndTheNthTicks_fault :
    ∃ s t, s.halt = none ∧ step s = .next t ∧ decodeWord s.fetchWord = some .ret ∧ t.halt ≠ none := by
  obtain ⟨t, h, e⟩ := step_of_stepped
    (show stepped 0x00EE { launch with cyc := 19 } (fun t => t.halt != none) = true by decide)
  exact ⟨_, t, rfl, h, by decide, by simpa using e⟩

/-- One cycle, the last of its batch. -/
theorem witness_TheDelayTimerLosesOnePerBatchOfCycles :
    ∃ s t, s.cyc < s.cfg.cyclesPerTick ∧ Host.Core.run core 1 s = .next t ∧ t.halt = none ∧ s.dt = 5 ∧
      ∀ (j : Nat) (u : State) (x : Reg), j < 1 → Host.Core.run core j s = .next u →
        decodeWord u.fetchWord ≠ some (.setDelay x) := by
  obtain ⟨t, h, e⟩ := step_of_stepped
    (show stepped 0x1200 { launch with cyc := 19, dt := 5 } (fun t => t.halt == none) = true by decide)
  refine ⟨placed 0x1200 { launch with cyc := 19, dt := 5 }, t, by decide, run_next h 0, by simpa using e, rfl, ?_⟩
  intro j u x hj hu
  have : j = 0 := by omega
  subst this
  cases hu
  have : decodeWord (placed 0x1200 { launch with cyc := 19, dt := 5 }).fetchWord = some (.jump 0x200) := by decide
  rw [this]; simp

/-- The longest wait that does not end the batch, from its first cycle (whose refresh finds no key) and from a later one. -/
theorem witness_AWaitingCoreRetriesForTheRestOfTheBatch_inside :
    ∀ s ∈ [placed 0xF30A launch, placed 0xF30A (keysDown [])],
      s.halt = none ∧ s.loaded = true ∧ s.dirty = false ∧ decodeWord s.fetchWord = some (.waitKey 3) ∧
      (∀ j : Key, s.beginCycle.keys[j] = false) ∧ s.cyc + (17 + 1) < s.cfg.cyclesPerTick := by decide

/-- The wait that ends the batch, of all its N cycles and of the last one only. -/
theorem witness_AWaitingCoreRetriesForTheRestOfTheBatch_end :
    (placed 0xF30A launch).cyc + (19 + 1) = (placed 0xF30A launch).cfg.cyclesPerTick ∧
    ∀ s ∈ [placed 0xF30A launch, placed 0xF30A { keysDown [] with cyc := 19 }],
      s.halt = none ∧ s.loaded = true ∧ s.dirty = false ∧ decodeWord s.fetchWord = some (.waitKey 3) ∧
      (∀ j : Key, s.beginCycle.keys[j] = false) ∧
      (s.cyc + (19 + 1) = s.cfg.cyclesPerTick ∨ s.cyc + (0 + 1) = s.cfg.cyclesPerTick) := by decide

theorem witness_AParkedCoreRunsForEver :
    let s := placed 0x1200 launch
    s.halt = none ∧ s.loaded = true ∧ s.dirty = false ∧ decodeWord s.fetchWord = some (.jump s.pc) := by decide

/-- The least parameters R7 allows. -/
def least : Config :=
  { Config.default with cyclesPerTick := 1, stackLow := 0x201, stackHigh := 0x201, drawEdge := .wrap }

theorem witness_ResetGivesTheStatedValues :
    least.Valid ∧ 0x200 ≤ (0x200 : Addr).toNat ∧ (0x200 : Addr).toNat < least.stackLow := by decide

theorem witness_ResetDiscardsEveryState :
    let s : State := { launch with halt := some ⟨.unknownInstruction, 0x200, 0⟩, pc := 0x345 }
    s.cfg.Valid ∧ s.cfg = launch.cfg ∧ s.inputs = launch.inputs ∧ s.pc ≠ launch.pc := by decide

theorem witness_ResetMeetsTheInvariant : least.Valid ∧ Config.default.Valid := by decide

theorem launch_inv : launch.Inv :=
  ⟨by decide, Memory.nil_wf _, by decide, rfl, by (intro r h; cases h), by intro h; cases h⟩

theorem witness_EveryStepKeepsTheInvariant : ∃ s t, s.Inv ∧ step s = .next t ∧ t.halt = none := by
  obtain ⟨t, h, e⟩ := step_of_stepped (show stepped 0x6001 launch (fun t => t.halt == none) = true by decide)
  exact ⟨_, t, ⟨by decide, by decide, by decide, rfl, by (intro r h; cases h), by intro h; cases h⟩, h, by simpa using e⟩

theorem witness_EveryStepKeepsTheInvariant_fault : ∃ s t, s.Inv ∧ step s = .next t ∧ t.halt ≠ none :=
  ⟨launch, _, launch_inv, step_unknown rfl rfl (by decide), by simp⟩

theorem witness_NoStepChangesTheParameters : ∃ t, step (placed 0x6000 launch) = .next t := by
  obtain ⟨t, h, -⟩ := step_of_stepped (show stepped 0x6000 launch (fun _ => true) = true by decide)
  exact ⟨t, h⟩

/-- The longest ROM, at the least capacity; the empty one; one too long; a core that was loaded. -/
theorem witness_TheLoaderDepositsTheRomAt0x200 :
    let s := State.resetFor least host
    s.cfg.Valid ∧ s.loaded = false ∧ ([0x12] : List Byte) ≠ [] ∧ 0x200 + ([0x12] : List Byte).length ≤ s.cfg.stackLow ∧
      s.cfg.stackLow < 0x200 + ([0x12, 0] : List Byte).length ∧ s.Inv ∧ launch.cfg.Valid ∧ launch.loaded = true := by
  refine ⟨by decide, rfl, by decide, by decide, by decide, ⟨by decide, Memory.nil_wf _, by decide, rfl, ?_, fun _ => rfl⟩,
    by decide, rfl⟩
  intro r h; cases h

theorem witness_ReturnPopsAndResumesAfterTheCall :
    ({ launch with sp := 1 } : State).sp.val = (0 : Fin 16).val + 1 ∧
    ({ launch with sp := 16 } : State).sp.val = (15 : Fin 16).val + 1 ∧ launch.sp.val = 0 := by decide

theorem witness_CallPushesItsOwnAddress :
    launch.sp.val = (0 : Fin 16).val ∧ ({ launch with sp := 15 } : State).sp.val = (15 : Fin 16).val ∧
    ({ launch with sp := 16 } : State).sp.val = 16 := by decide

theorem witness_KeySkipsTestTheLatchedKeyOfTheLowFourBits :
    (15 : Key).val = (regs [(3, 0xFF)] launch).v[(3 : Reg)].toNat % 16 ∧
    (0 : Key).val = (regs [(3, 0x10)] launch).v[(3 : Reg)].toNat % 16 := by decide

theorem witness_PcAfterEachInstruction : ∃ t, exec (.jumpIndexed 0xFFF) launch = .next t := ⟨_, rfl⟩

theorem witness_FlagWritesStoreZeroOrOne :
    (14 : Reg) ≠ 15 ∧ (∃ t, exec (.addReg 14 15) launch = .next t) ∧ (∃ t, exec (.addIndex 15) launch = .next t) ∧
    ¬ Stmt.DrawsOutside launch launch.v[(15 : Reg)].toNat launch.v[(15 : Reg)].toNat 15 ∧
    (∃ t, exec (.drawSprite 15 15 15) launch = .next t) :=
  ⟨by decide, ⟨_, rfl⟩, ⟨_, rfl⟩, by decide, ⟨_, rfl⟩⟩

theorem witness_OnlyThreeInstructionsChangeTheIndex : ∃ s t, step s = .next t ∧ t.idx ≠ s.idx := by
  obtain ⟨t, h, e⟩ := step_of_stepped (show stepped 0xA001 launch (fun t => t.idx == 1) = true by decide)
  have e : t.idx = 1 := by simpa using e
  exact ⟨_, t, h, by rw [e]; decide⟩

/-- A table of one entry: it is defined at 0 and not at 1. -/
theorem witness_StoreBcdWritesThreeDigits :
    let s : State := .resetFor { Config.default with bcdOnes := [9] } launch.inputs
    s.cfg.bcdOnes[(s.v[(0 : Reg)]).toNat]? = some 9 ∧
    s.cfg.bcdOnes[((regs [(1, 1)] s).v[(1 : Reg)]).toNat]? = none ∧
    ∀ k < 3, (0xFFF : Addr) ≠ effAddr s.idx k := by decide

theorem witness_StoreRegsWritesTheBlock :
    (15 : Reg) ≤ 15 ∧ ∀ k : Reg, k ≤ 15 → (0x010 : Addr) ≠ effAddr launch.idx k.val := by decide

theorem witness_LoadRegsReadsTheBlock : (14 : Reg) ≤ 14 ∧ (14 : Reg) < 15 := by decide

theorem witness_StoreRegsThenLoadRegsRestoresTheRegisters :
    ∃ t u, exec (.storeRegs 15) launch = .next t ∧
      exec (.loadRegs 15) { t with v := Vector.replicate 16 0xAA } = .next u := ⟨_, _, rfl, rfl⟩

theorem witness_OnlyTheTwoStoresChangeMemory :
    ∃ s t, step s = .next t ∧ (∀ x, decodeWord s.fetchWord ≠ some (.storeBcd x)) ∧
      (∀ x, decodeWord s.fetchWord ≠ some (.storeRegs x)) := by
  obtain ⟨t, h, -⟩ := step_of_stepped (show stepped 0xF065 launch (fun _ => true) = true by decide)
  exact ⟨_, t, h, by decide, by decide⟩

/-- A block of registers whose last byte is the first of the next instruction. -/
theorem witness_AStoreIsSeenByTheNextFetch_regs :
    ∃ s t, step s = .next t ∧ decodeWord s.fetchWord = some (.storeRegs 15) ∧
      effAddr s.idx (15 : Reg).val = s.pc + 2 ∧ ∀ k : Reg, k ≤ 15 → s.pc + 3 ≠ effAddr s.idx k.val := by
  obtain ⟨t, h, -⟩ := step_of_stepped
    (show stepped 0xFF55 { launch with pc := 0x20E, idx := 0x201 } (fun _ => true) = true by decide)
  exact ⟨_, t, h, by decide, by decide, by decide⟩

/-- Digits whose first is the second byte of the next instruction. -/
theorem witness_AStoreIsSeenByTheNextFetch_bcd :
    ∃ s t, step s = .next t ∧ decodeWord s.fetchWord = some (.storeBcd 3) ∧
      effAddr s.idx 0 = s.pc + 3 ∧ ∀ k < 3, s.pc + 2 ≠ effAddr s.idx k := by
  obtain ⟨t, h, -⟩ := step_of_stepped
    (show stepped 0xF333 { launch with pc := 0x206, idx := 0x209 } (fun _ => true) = true by decide)
  exact ⟨_, t, h, by decide, by decide, by decide⟩

theorem witness_WaitKeyRetriesOrDeliversAPressedKey :
    (∀ k : Key, (keysDown []).keys[k] = false) ∧
    ((keysDown [2, 15]).keys[(15 : Key)] = true ∧ (keysDown [2, 15]).keys[(2 : Key)] = true) ∧
    ((keysDown [15]).keys[(15 : Key)] = true ∧ ∀ j : Key, (keysDown [15]).keys[j] = true → j = 15) := by decide

theorem witness_RandomAndMasksTheDrawnByte : launch.inputs.randomBytes = 0xB7 :: [] := rfl

theorem witness_NoInstructionReadsTheSoundTimer : ∃ t, exec (.setSound 1) launch = .next t := ⟨_, rfl⟩

theorem witness_DrawSpriteInvertsTheCellsItFallsOnAndReportsCollision :
    15 < 16 ∧ ¬ Stmt.DrawsOutside launch launch.v[(0 : Reg)].toNat launch.v[(1 : Reg)].toNat 15 := by decide

theorem witness_DrawingTwiceRestoresTheDisplay :
    ∃ s t u : State, exec (.drawSprite 0 1 15) s = .next t ∧ 15 < 16 ∧
      ¬ Stmt.DrawsOutside s s.v[(0 : Reg)].toNat s.v[(1 : Reg)].toNat 15 ∧ t.cfg.drawEdge = s.cfg.drawEdge ∧ t.idx = s.idx ∧
      t.v[(0 : Reg)] = s.v[(0 : Reg)] ∧ t.v[(1 : Reg)] = s.v[(1 : Reg)] ∧
      (∀ k < 15, t.readByte (effAddr s.idx k) = s.readByte (effAddr s.idx k)) ∧
      exec (.drawSprite 0 1 15) t = .next u :=
  ⟨launch, _, _, rfl, by decide, by decide, rfl, rfl, rfl, rfl, fun _ _ => rfl, rfl⟩

theorem witness_OnlyDrawAndClearChangeTheDisplay : ∃ s t, step s = .next t ∧ t.disp ≠ s.disp := by
  obtain ⟨t, h, e⟩ := step_of_stepped (show stepped 0xD015 launch (fun t => cell t 0 0) = true by decide)
  refine ⟨_, t, h, fun hd => ?_⟩
  have h0 : cell (placed 0xD015 launch) 0 0 = false := by decide
  have : cell t 0 0 = cell (placed 0xD015 launch) 0 0 := by rw [cell, cell, hd]
  rw [this, h0] at e
  cases e

theorem witness_RegistersChangeOnlyAsTheTableOfWritersSays :
    (∃ t, exec (.loadRegs 14) launch = .next t) ∧ ¬ Stmt.MayWrite (.loadRegs 14) 15 :=
  ⟨⟨_, rfl⟩, by show ¬ ((15 : Reg) ≤ 14); decide⟩

theorem witness_OnlyCallAndReturnTouchTheStack :
    ∃ s t, step s = .next t ∧ (∀ nnn, decodeWord s.fetchWord ≠ some (.call nnn)) ∧
      decodeWord s.fetchWord ≠ some .ret ∧ (0 : Fin 16).val < s.sp.val := by
  obtain ⟨t, h, -⟩ := step_of_stepped (show stepped 0x1200 { launch with sp := 1 } (fun _ => true) = true by decide)
  have hd : decodeWord (placed 0x1200 { launch with sp := 1 }).fetchWord = some (.jump 0x200) := by decide
  exact ⟨_, t, h, by rw [hd]; simp, by rw [hd]; simp, by decide⟩

theorem witness_ReturnAfterCallResumesBehindTheCall :
    ∃ s t t' u, s.sp.val < 16 ∧ s.halt = none ∧ decodeWord s.fetchWord = some (.call 0x300) ∧ step s = .next t ∧
      t'.stack = t.stack ∧ t'.sp = t.sp ∧ t'.halt = none ∧ decodeWord t'.fetchWord = some .ret ∧
      step t' = .next u := by
  obtain ⟨t, h, e⟩ := step_of_stepped
    (show stepped 0x2300 { launch with sp := 15 } (fun t => t.sp == 16) = true by decide)
  obtain ⟨u, h', -⟩ := step_of_stepped
    (show stepped 0x00EE { launch with sp := 16 } (fun _ => true) = true by decide)
  have hsp : t.sp = 16 := by simpa using e
  let t' : State := { placed 0x00EE launch with stack := t.stack, sp := t.sp }
  have hd : decodeWord t'.fetchWord = some .ret :=
    show decodeWord (placed 0x00EE launch).fetchWord = some .ret by decide
  obtain ⟨v, hv⟩ : ∃ v, exec .ret t'.beginCycle.advancePc = .next v :=
    ⟨_, by rw [exec, execRet, State.pop_used _ (15 : Fin 16) (by show t.sp.val = _; rw [hsp]; rfl)]⟩
  exact ⟨_, t, t', _, by decide, rfl, by decide, h, rfl, rfl, rfl, hd, step_decoded rfl rfl hd hv⟩

theorem witness_AWaitingCoreNeverStarts :
    waiting.halt = none ∧ waiting.loaded = false ∧ (∃ s t, step s = .next t) ∧ ∃ t, waiting.load [0x12, 0x00] = .next t := by
  obtain ⟨t, h, -⟩ := step_of_stepped (show stepped 0x1200 launch (fun _ => true) = true by decide)
  exact ⟨rfl, rfl, ⟨_, t, h⟩, ⟨_, by rw [State.load, if_neg (by decide), if_neg (by decide), if_neg (by decide)]⟩⟩

/-- The least excess: one pixel in column 64 under fault, one at the linear index 2048 under replicate. -/
theorem witness_ADrawThePolicyForbidsFaultsOrIsRefused :
    let s := fun e => regs [(0, 57), (1, 31)] { (launchUnder e).writeByte 0x300 0x01 with idx := 0x300 }
    (∀ e ∈ [EdgePolicy.fault, .replicate], (s e).cfg.drawEdge = e ∧
      Stmt.DrawsOutside (s e) (s e).v[(0 : Reg)].toNat (s e).v[(1 : Reg)].toNat 1) ∧
    (s .clip).cfg.drawEdge = .clip ∧ (s .wrap).cfg.drawEdge = .wrap := by decide

end Sys2Proof.Tests
end

section
/-! SUPPORT. When the edge policy keeps a sprite from being drawn, and what draw-sprite then answers (spec/47_draw.md
R186, log 19). -/

namespace Sys2Proof.Machine

open Sys2Proof.Stmt

/-- The encoder's word of a draw-sprite is the number R75 writes. -/
theorem encode_drawSprite (x y : Reg) {n : Nat} (hn : n < 16) :
    encode (.drawSprite x y n) = BitVec.ofNat 16 (0xD000 + 0x100 * x.val + 0x10 * y.val + n) := by
  apply BitVec.eq_of_toNat_eq
  have hy : (regBits y).toNat = y.val := rfl
  rw [encode, toNat_formatXYN, hy, BitVec.toNat_ofNat, BitVec.toNat_ofNat, Nat.mod_eq_of_lt hn,
    Nat.mod_eq_of_lt (by omega)]
  rfl

theorem pixelOutside_iff (e : EdgePolicy) (px py : Nat) :
    pixelOutside e px py = true ↔
      (e = .fault ∧ (63 < px ∨ 31 < py)) ∨ (e = .replicate ∧ 2048 ≤ 64 * py + px) := by
  cases e <;> simp [pixelOutside]

/-- The statements' reading of a sprite that may not be drawn is the model's own test. -/
theorem drawsOutside_iff_spriteOutside (s : State) (x0 y0 n : Nat) :
    DrawsOutside s x0 y0 n ↔ spriteOutside s.cfg.drawEdge s.spriteRow x0 y0 n = true := by
  simp only [spriteOutside_iff, pixelOutside_iff, State.spriteRow, DrawsOutside, and_comm]

theorem not_drawsOutside_of_clip_or_wrap {s : State} (h : s.cfg.drawEdge = .clip ∨ s.cfg.drawEdge = .wrap)
    (x0 y0 n : Nat) : ¬ DrawsOutside s x0 y0 n := by
  rw [drawsOutside_iff_spriteOutside, spriteOutside_eq_false h]
  exact Bool.false_ne_true

/-- A sprite that may not be drawn faults, under the policy fault, or is refused, under replicate. -/
theorem exec_drawSprite_of_drawsOutside {s : State} {x y : Reg} {n : Nat}
    (hout : DrawsOutside s s.v[x].toNat s.v[y].toNat n) :
    (s.cfg.drawEdge = .fault ∧
      exec (.drawSprite x y n) s = .next (s.raise .spriteOffGrid (encode (.drawSprite x y n)))) ∨
    (s.cfg.drawEdge = .replicate ∧ exec (.drawSprite x y n) s = .refused .spriteOverrun) := by
  rw [drawsOutside_iff_spriteOutside] at hout
  rcases execDrawSprite_cases x y n s with ⟨hin, -⟩ | ⟨-, hfault⟩ | ⟨-, hrefused⟩
  · exact absurd (hin.symm.trans hout) Bool.false_ne_true
  · exact .inl hfault
  · exact .inr hrefused

end Sys2Proof.Machine
end

section
/-! The policies this hardware does not have (spec/00_scope.md R7). -/

namespace Sys2Proof.Machine

/-- Settles O55: a sprite that may not be drawn goes one of two ways, told apart by the policy, and under clip and wrap
every sprite may be drawn. -/
theorem aDrawThePolicyForbidsFaultsOrIsRefused : Obligations.ADrawThePolicyForbidsFaultsOrIsRefused := by
  unfold Obligations.ADrawThePolicyForbidsFaultsOrIsRefused
  intro s x y n hn
  refine ⟨fun hout => ?_, fun hpolicy => not_drawsOutside_of_clip_or_wrap hpolicy _ _ _⟩
  rcases exec_drawSprite_of_drawsOutside hout with ⟨he, hexec⟩ | ⟨he, hexec⟩
  · refine ⟨fun _ => ?_, fun hreplicate => ?_⟩
    · rw [hexec, encode_drawSprite x y hn]
      rfl
    · rw [he] at hreplicate
      cases hreplicate
  · refine ⟨fun hfault => ?_, fun _ => hexec⟩
    rw [he] at hfault
    cases hfault

end Sys2Proof.Machine
end

section
/-! SUPPORT. The encoder undoes the decoder (spec/30_encoding.md R72, R76). -/

namespace Sys2Proof

/-- A word of format A from the number of its group. -/
theorem formatA_of_fieldOp {w : Word} {k : Nat} (h : fieldOp w = k) :
    formatA (BitVec.ofNat 4 k) (fieldNNN w) = w := by
  rw [← nibble3_of_fieldOp w h, ← eq_formatA]

/-- A word of format XK from the numbers of its group and of its low byte. -/
theorem formatXK_of_fieldOp {w : Word} {k : Nat} (h : fieldOp w = k) :
    formatXK (BitVec.ofNat 4 k) (fieldX w) (fieldKK w) = w := by
  rw [← nibble3_of_fieldOp w h, ← eq_formatXK]

theorem formatXK_of_fieldKK {w : Word} {k b : Nat} (h : fieldOp w = k) (hb : (fieldKK w).toNat = b) :
    formatXK (BitVec.ofNat 4 k) (fieldX w) (BitVec.ofNat 8 b) = w := by
  rw [← hb, BitVec.ofNat_toNat, BitVec.setWidth_eq, formatXK_of_fieldOp h]

/-- A word of format XYN from the number of its group. -/
theorem formatXYN_of_fieldOp {w : Word} {k : Nat} (h : fieldOp w = k) :
    formatXYN (BitVec.ofNat 4 k) (fieldX w) (w.extractLsb' 4 4) (w.extractLsb' 0 4) = w := by
  rw [← nibble3_of_fieldOp w h, ← eq_formatXYN]

theorem formatXYN_of_fieldN {w : Word} {k n : Nat} (h : fieldOp w = k) (hn : fieldN w = n) :
    formatXYN (BitVec.ofNat 4 k) (fieldX w) (w.extractLsb' 4 4) (BitVec.ofNat 4 n) = w := by
  rw [← hn, fieldN, BitVec.ofNat_toNat, BitVec.setWidth_eq, formatXYN_of_fieldOp h]

theorem encode_of_decodeGroup0 {w : Word} {i : Instr} (h : decodeGroup0 w = some i) : encode i = w := by
  unfold decodeGroup0 at h
  split at h
  · next hw => cases h; exact hw.symm
  · split at h
    · next hw => cases h; exact hw.symm
    · cases h

theorem encode_of_decodeGroup8 {w : Word} {i : Instr} (hop : fieldOp w = 8) (h : decodeGroup8 w = some i) :
    encode i = w := by
  unfold decodeGroup8 at h
  split at h <;> cases h <;> exact formatXYN_of_fieldN hop (by assumption)

theorem encode_of_decodeGroupE {w : Word} {i : Instr} (hop : fieldOp w = 14) (h : decodeGroupE w = some i) :
    encode i = w := by
  unfold decodeGroupE at h
  split at h <;> cases h <;> exact formatXK_of_fieldKK hop (by assumption)

theorem encode_of_decodeGroupF {w : Word} {i : Instr} (hop : fieldOp w = 15) (h : decodeGroupF w = some i) :
    encode i = w := by
  unfold decodeGroupF at h
  split at h <;> cases h <;> exact formatXK_of_fieldKK hop (by assumption)

/-- Every word that decodes is the word of what it decodes to. -/
theorem encode_of_decodeWord {w : Word} {i : Instr} (h : decodeWord w = some i) : encode i = w := by
  unfold decodeWord at h
  split at h
  case h_1 => exact encode_of_decodeGroup0 h
  case h_9 hop => exact encode_of_decodeGroup8 hop h
  case h_15 hop => exact encode_of_decodeGroupE hop h
  case h_16 hop => exact encode_of_decodeGroupF hop h
  case h_17 => cases h
  case h_2 hop | h_3 hop | h_11 hop | h_12 hop => cases h; exact formatA_of_fieldOp hop
  case h_4 hop | h_5 hop | h_7 hop | h_8 hop | h_13 hop => cases h; exact formatXK_of_fieldOp hop
  case h_6 hop | h_10 hop => cases h; exact formatXYN_of_fieldOp hop
  case h_14 hop => cases h; exact formatXYN_of_fieldN hop rfl

end Sys2Proof
end

section
/-! SUPPORT. What an instruction can do to the state, said once for all of them: which fields it writes
(spec/10_state.md R22 to R31, spec/60_exceptions.md R206). -/

namespace Sys2Proof.Machine

open Sys2Proof.Stmt

/-- The instruction `i` raises a fault of cause `c` in the state `s` of the execute phase (R202, R203; the last under
the edge policy `fault` alone, log 19). -/
def Raises (i : Instr) (s : State) : FaultCause → Prop
  | .unknownInstruction => False
  | .stackOverflow => s.sp.val = 16 ∧ ∃ nnn, i = .call nnn
  | .stackUnderflow => s.sp.val = 0 ∧ i = .ret
  | .spriteOffGrid => s.cfg.drawEdge = .fault ∧ ∃ x y n, i = .drawSprite x y n ∧
      spriteOutside s.cfg.drawEdge s.spriteRow (s.reg x).toNat (s.reg y).toNat n = true

/-- The instruction is one of the three that write I (R24). -/
def WritesIndex (i : Instr) : Prop :=
  (∃ nnn, i = .loadIndex nnn) ∨ (∃ x, i = .addIndex x) ∨ (∃ x, i = .loadFontPtr x)

/-- The instruction is one of the two that write the display (R29). -/
def WritesDisplay (i : Instr) : Prop := i = .clearScreen ∨ ∃ x y n, i = .drawSprite x y n

/-- The instruction is one of the two that write memory (R34). -/
def WritesMemory (i : Instr) : Prop := (∃ x, i = .storeBcd x) ∨ ∃ x, i = .storeRegs x

/-- The ways an instruction `i` takes the state `s` of the execute phase to a next state, told apart by the fields
written; no field changes that a way does not name. -/
inductive Effect (i : Instr) (s : State) : State → Prop
  /-- A fault is taken (R206). -/
  | fault (c : FaultCause) (hc : Raises i s c) : Effect i s (s.raise c (encode i))
  /-- Only pc is written: the jumps, the skips, the retry of wait-key. -/
  | branch (a : Addr) : Effect i s (s.setPc a)
  /-- call with a free entry pushes its own address (R113). -/
  | call (nnn : Addr) (hi : i = .call nnn) (k : Fin 16) (hk : s.sp.val = k.val) :
    Effect i s { s with stack := s.stack.set k s.ia, sp := k.succ, pc := nnn }
  /-- return with an entry in use pops it (R111). -/
  | ret (hi : i = .ret) (k : Fin 16) (hk : s.sp.val = k.val + 1) :
    Effect i s { s with sp := k.castSucc, pc := s.stack[k] + 2 }
  /-- General registers are written; random-and and wait-key also consume inputs. -/
  | registers (v : Vector Byte 16) (p : Inputs) (hv : ∀ r : Reg, ¬ MayWrite i r → v[r] = s.v[r]) :
    Effect i s { s with v := v, inputs := p }
  /-- I is written, by add-index with the flag. -/
  | index (hi : WritesIndex i) (w : Word) (v : Vector Byte 16) (hv : ∀ r : Reg, ¬ MayWrite i r → v[r] = s.v[r]) :
    Effect i s { s with idx := w, v := v }
  /-- The display is written and the hand-off requested, by draw-sprite with the flag. -/
  | display (hi : WritesDisplay i) (d : Display) (v : Vector Byte 16)
      (hv : ∀ r : Reg, ¬ MayWrite i r → v[r] = s.v[r]) :
    Effect i s { s with disp := d, dirty := true, v := v }
  /-- Memory is written, through the writes that keep its canonical form. -/
  | memory (hi : WritesMemory i) (m : Memory) (hm : Memory.wf s.cfg s.mem = true → Memory.wf s.cfg m = true) :
    Effect i s { s with mem := m }
  /-- A timer is written: set-delay, set-sound. -/
  | timers (d e : Byte) : Effect i s { s with dt := d, st := e }

/-! ## Single writes -/

/-- A write to V[x] leaves every other register as it was. -/
theorem getElem_set_of_not_mayWrite {i : Instr} {x : Reg} (hx : MayWrite i x) (v : Vector Byte 16) (b : Byte) (r : Reg)
    (hr : ¬ MayWrite i r) : (v.set x b)[r] = v[r] := by
  have hne : x.val ≠ r.val := fun e => hr (Fin.ext e ▸ hx)
  simp [hne]

/-- An instruction that writes one of its registers and consumes inputs. -/
theorem Effect.setReg {i : Instr} {x : Reg} (hx : MayWrite i x) (s : State) (b : Byte) (p : Inputs) :
    Effect i s { s.setReg x b with inputs := p } :=
  .registers (s.v.set x b) p (getElem_set_of_not_mayWrite hx s.v b)

/-- An instruction that writes the flag and its result (R141). -/
theorem Effect.writeFlagged {i : Instr} {x : Reg} (hx : MayWrite i x) (hflag : MayWrite i flagReg) (s : State)
    (f b : Byte) : Effect i s (s.writeFlagged x f b) :=
  .registers ((s.v.set flagReg f).set x b) s.inputs fun r hr =>
    (getElem_set_of_not_mayWrite hx _ b r hr).trans (getElem_set_of_not_mayWrite hflag s.v f r hr)

/-! ## The instructions with more than one outcome -/

theorem exec_ret_empty {s : State} (h : s.sp.val = 0) :
    exec .ret s = .next (s.raise .stackUnderflow (encode .ret)) := by
  simp [exec, execRet, s.pop_empty h]

theorem exec_ret_used {s : State} {k : Fin 16} (h : s.sp.val = k.val + 1) :
    exec .ret s = .next { s with sp := k.castSucc, pc := s.stack[k] + 2 } := by
  simp [exec, execRet, s.pop_used k h, State.setPc]

theorem exec_call_full {s : State} (h : s.sp.val = 16) (nnn : Addr) :
    exec (.call nnn) s = .next (s.raise .stackOverflow (encode (.call nnn))) := by
  simp [exec, execCall, s.push_full _ h]

theorem exec_call_free {s : State} {k : Fin 16} (h : s.sp.val = k.val) (nnn : Addr) :
    exec (.call nnn) s = .next { s with stack := s.stack.set k s.ia, sp := k.succ, pc := nnn } := by
  simp [exec, execCall, s.push_free _ k h, State.setPc]

/-- With no key pressed wait-key goes back to its own address (R171). -/
theorem exec_waitKey_retry {s : State} (h : ¬ ∃ k : Key, s.keys[k] = true) (x : Reg) :
    exec (.waitKey x) s = .next (s.setPc s.ia) := by
  have hempty := (pressedKeys_isEmpty s.keys).2 h
  simp [exec, execWaitKey, List.isEmpty_iff.1 hempty, State.setPc]

/-- With a key pressed wait-key writes V[x], and pc moves on (R171). -/
theorem exec_waitKey_deliver {s : State} (h : ∃ k : Key, s.keys[k] = true) (x : Reg) :
    ∃ b p, exec (.waitKey x) s = .next { s.setReg x b with inputs := p } := by
  have hempty : ¬ (pressedKeys s.keys).isEmpty = true := fun e => (pressedKeys_isEmpty s.keys).1 e h
  exact ⟨BitVec.ofNat 8 (pickKey (pressedKeys s.keys) s.inputs.pick).val,
    if 2 ≤ (pressedKeys s.keys).length then s.inputs.afterPick else s.inputs,
    by simp [exec, execWaitKey, hempty, State.setReg]⟩

/-! ## The inversion of the execute phase -/

/-- What an instruction that answers a next state did. -/
theorem exec_effect {i : Instr} {s t : State} (h : exec i s = .next t) : Effect i s t := by
  cases i
  case ret =>
    rcases s.sp_cases with hsp | ⟨k, hk⟩
    · rw [exec_ret_empty hsp] at h; cases h; exact .fault _ ⟨hsp, rfl⟩
    · rw [exec_ret_used hk] at h; cases h; exact .ret rfl k hk
  case call nnn =>
    rcases s.sp_cases' with hsp | ⟨k, hk⟩
    · rw [exec_call_full hsp] at h; cases h; exact .fault _ ⟨hsp, nnn, rfl⟩
    · rw [exec_call_free hk] at h; cases h; exact .call nnn rfl k hk
  case jump | jumpIndexed | skipEqImm | skipNeqImm | skipEqReg | skipNeqReg | skipKey | skipNokey =>
    cases h; exact .branch _
  case waitKey x =>
    by_cases hkey : ∃ k : Key, s.keys[k] = true
    · obtain ⟨b, p, hx⟩ := exec_waitKey_deliver hkey x
      rw [hx] at h; cases h; exact .setReg (by exact rfl) s b p
    · rw [exec_waitKey_retry hkey] at h; cases h; exact .branch _
  case loadImm | addImm | loadReg | orReg | andReg | xorReg | readDelay | randomAnd =>
    cases h; exact .setReg (by exact rfl) s _ _
  case addReg | subReg | shiftRight | subRegReverse | shiftLeft =>
    cases h; exact Effect.writeFlagged (by exact .inl rfl) (by exact .inr rfl) s _ _
  case loadRegs x =>
    cases h
    rw [loadRegs_eq]
    refine .registers _ s.inputs fun r hr => ?_
    have hxr : ¬ r.val < x.val + 1 := fun hlt => hr (Nat.le_of_lt_succ hlt)
    rw [loadRegs_reg s _ (by omega), if_neg hxr]
  case loadIndex nnn => cases h; exact .index (.inl ⟨nnn, rfl⟩) _ s.v fun _ _ => rfl
  case loadFontPtr x => cases h; exact .index (.inr (.inr ⟨x, rfl⟩)) _ s.v fun _ _ => rfl
  case addIndex x => cases h; exact .index (.inr (.inl ⟨x, rfl⟩)) _ _ (getElem_set_of_not_mayWrite (by exact rfl) s.v _)
  case storeBcd x =>
    cases h
    exact .memory (.inl ⟨x, rfl⟩) _ fun hm => Memory.write_wf (Memory.write_wf (Memory.write_wf hm _ _) _ _) _ _
  case storeRegs x =>
    cases h
    rw [storeRegs_eq]
    exact .memory (.inr ⟨x, rfl⟩) _ fun hm => storeRegs_wf hm _
  case setDelay | setSound => cases h; exact .timers _ _
  case clearScreen => cases h; exact .display (.inl rfl) _ s.v fun _ _ => rfl
  case drawSprite x y n =>
    rcases execDrawSprite_cases x y n s with ⟨-, b, -, hx⟩ | ⟨hout, hedge, hx⟩ | ⟨-, -, hx⟩
    · rw [exec, hx] at h; cases h
      exact .display (.inr ⟨x, y, n, rfl⟩) _ _ (getElem_set_of_not_mayWrite (by exact rfl) s.v _)
    · rw [exec, hx] at h; cases h; exact .fault _ ⟨hedge, x, y, n, rfl, hout⟩
    · rw [exec, hx] at h; cases h

end Sys2Proof.Machine
end

section
/-! SUPPORT. The frames of the state's fields over all instructions (spec/10_state.md R22 to R31), read off `Effect`, and
what the end of a cycle leaves as it was (spec/40_fetch_decode_cycle.md R95). -/

namespace Sys2Proof.Machine

open Sys2Proof.Stmt

/-! ## The execute phase -/

theorem exec_v_frame {i : Instr} {s t : State} {r : Reg} (h : exec i s = .next t) (hr : ¬ MayWrite i r) :
    t.v[r] = s.v[r] := by
  cases exec_effect h with
  | registers v p hv => exact hv r hr
  | index hi w v hv => exact hv r hr
  | display hi d v hv => exact hv r hr
  | _ => rfl

theorem exec_idx_frame {i : Instr} {s t : State} (h : exec i s = .next t) (hi : ¬ WritesIndex i) : t.idx = s.idx := by
  cases exec_effect h with
  | index hw => exact absurd hw hi
  | _ => rfl

theorem exec_disp_frame {i : Instr} {s t : State} (h : exec i s = .next t) (hi : ¬ WritesDisplay i) :
    t.disp = s.disp := by
  cases exec_effect h with
  | display hw => exact absurd hw hi
  | _ => rfl

/-- The stack is touched by call and return alone (R28). -/
theorem exec_stack_frame {i : Instr} {s t : State} (h : exec i s = .next t) (hcall : ∀ nnn, i ≠ .call nnn)
    (hret : i ≠ .ret) : t.stack = s.stack ∧ t.sp = s.sp := by
  cases exec_effect h with
  | call nnn hi => exact absurd hi (hcall nnn)
  | ret hi => exact absurd hi hret
  | _ => exact ⟨rfl, rfl⟩

/-- The depth of the stack moves by at most one, and the entries that were in use keep their values (R28). -/
theorem exec_stack_in_use {i : Instr} {s t : State} (h : exec i s = .next t) :
    t.sp.val ≤ s.sp.val + 1 ∧ s.sp.val ≤ t.sp.val + 1 ∧
    ∀ k : Fin 16, k.val < s.sp.val → t.stack[k] = s.stack[k] := by
  cases exec_effect h with
  | call nnn hi k hk =>
    refine ⟨by simp [hk], by simp [hk]; omega, fun j hj => ?_⟩
    have hne : k.val ≠ j.val := by omega
    simp [hne]
  | ret hi k hk => exact ⟨by simp [hk]; omega, by simp [hk], fun _ _ => rfl⟩
  | _ => exact ⟨Nat.le_succ _, Nat.le_succ _, fun _ _ => rfl⟩

/-- Every instruction keeps memory in its canonical form. -/
theorem exec_memory_wf {i : Instr} {s t : State} (h : exec i s = .next t) (hm : Memory.wf s.cfg s.mem = true) :
    Memory.wf s.cfg t.mem = true := by
  cases exec_effect h with
  | memory hi m hwf => exact hwf hm
  | _ => exact hm

/-- An instruction that leaves a record in a core without one raised that fault (R206). -/
theorem exec_raises {i : Instr} {s t : State} {r : FaultRecord} (h : exec i s = .next t) (hs : s.halt = none)
    (ht : t.halt = some r) : ∃ c, Raises i s c ∧ t = s.raise c (encode i) := by
  cases exec_effect h with
  | fault c hc => exact ⟨c, hc, rfl⟩
  | _ => cases hs.symm.trans ht

/-! ## The end of the cycle -/

@[simp] theorem State.endCycle_cfg (s : State) : s.endCycle.cfg = s.cfg := by simp [s.endCycle_same]
@[simp] theorem State.endCycle_v (s : State) : s.endCycle.v = s.v := by simp [s.endCycle_same]
@[simp] theorem State.endCycle_idx (s : State) : s.endCycle.idx = s.idx := by simp [s.endCycle_same]
@[simp] theorem State.endCycle_pc (s : State) : s.endCycle.pc = s.pc := by simp [s.endCycle_same]
@[simp] theorem State.endCycle_stack (s : State) : s.endCycle.stack = s.stack := by simp [s.endCycle_same]
@[simp] theorem State.endCycle_sp (s : State) : s.endCycle.sp = s.sp := by simp [s.endCycle_same]
@[simp] theorem State.endCycle_mem (s : State) : s.endCycle.mem = s.mem := by simp [s.endCycle_same]
@[simp] theorem State.endCycle_disp (s : State) : s.endCycle.disp = s.disp := by simp [s.endCycle_same]
@[simp] theorem State.endCycle_halt (s : State) : s.endCycle.halt = s.halt := by simp [s.endCycle_same]
@[simp] theorem State.endCycle_loaded (s : State) : s.endCycle.loaded = s.loaded := by simp [s.endCycle_same]

/-- The render request is handed off at the end of a cycle that does not fault (R98). -/
theorem State.endCycle_dirty {s : State} (h : s.halt = none) : s.endCycle.dirty = false := by
  rw [State.endCycle_running h]

/-- The position in the batch stays below its length (R33, R95). -/
theorem State.endCycle_cyc_lt {s : State} (h : s.cyc < s.cfg.cyclesPerTick) :
    s.endCycle.cyc < s.cfg.cyclesPerTick := by
  cases hh : s.halt with
  | some r => rw [State.endCycle_fault hh]; exact h
  | none =>
    rw [State.endCycle_running hh]
    dsimp only
    split <;> omega

end Sys2Proof.Machine
end

section
/-! SUPPORT. What a draw-sprite does that the edge policy lets be drawn (spec/47_draw.md R185, R190). -/

namespace Sys2Proof.Machine

open Sys2Proof.Stmt

/-- The display and the collision bit after the blitter ran over the whole sprite (R185). -/
def spriteBlit (x y : Reg) (n : Nat) (s : State) : Blit :=
  Blit.rows s.cfg.drawEdge s.spriteRow (s.reg x).toNat (s.reg y).toNat { disp := s.disp, hit := false } n

theorem exec_drawSprite_drawn {s : State} {x y : Reg} {n : Nat}
    (hin : ¬ DrawsOutside s s.v[x].toNat s.v[y].toNat n) :
    exec (.drawSprite x y n) s = .next
      { s.setReg flagReg (flagByte (spriteBlit x y n s).hit) with disp := (spriteBlit x y n s).disp, dirty := true } := by
  rw [drawsOutside_iff_spriteOutside] at hin
  rcases execDrawSprite_cases x y n s with ⟨-, b, rfl, hx⟩ | ⟨hout, -⟩ | ⟨hout, -⟩
  · exact hx
  · exact absurd hout hin
  · exact absurd hout hin

end Sys2Proof.Machine
end

section
/-! The invariant of a run (spec/10_state.md R31, R33, R35, spec/60_exceptions.md R206). -/

namespace Sys2Proof.Machine

/-- The word at pc is the one the fetch read, where a fault took pc back to it (R206). -/
theorem State.fetchWord_raise_advancePc (s : State) (c : FaultCause) (w : Word) :
    (s.advancePc.raise c w).fetchWord = s.fetchWord := by
  show s.advancePc.readWord s.advancePc.ia = s.readWord s.pc
  rw [State.ia_advancePc]
  rfl

/-- A fault that a fetched instruction raises leaves a record that explains the state (R202, R203, R206). -/
theorem explains_of_raises {i : Instr} {s : State} {c : FaultCause} (hd : decodeWord s.fetchWord = some i)
    (hc : Raises i s.advancePc c) :
    FaultRecord.Explains ⟨c, s.advancePc.ia, encode i⟩ (s.advancePc.raise c (encode i)) := by
  have hw := encode_of_decodeWord hd
  refine ⟨rfl, by rw [State.fetchWord_raise_advancePc, hw], ?_⟩
  rw [← hw] at hd
  cases c with
  | unknownInstruction => exact hc.elim
  | stackOverflow =>
    obtain ⟨hsp, nnn, rfl⟩ := hc
    exact ⟨hsp, nnn, hd⟩
  | stackUnderflow =>
    obtain ⟨hsp, rfl⟩ := hc
    exact ⟨hsp, hd⟩
  | spriteOffGrid =>
    obtain ⟨hedge, x, y, n, rfl, hout⟩ := hc
    exact ⟨hedge, x, y, n, hd, hout⟩

/-- The fault of an unknown word leaves a record that explains the state (R201, R206). -/
theorem explains_unknown {s : State} (hd : decodeWord s.fetchWord = none) :
    FaultRecord.Explains ⟨.unknownInstruction, s.advancePc.ia, s.fetchWord⟩
      (s.advancePc.raise .unknownInstruction s.fetchWord) :=
  ⟨rfl, s.fetchWord_raise_advancePc _ _, hd⟩

/-- A cycle that takes a fault which its record explains keeps the invariant (R206). -/
theorem inv_raise {s : State} {c : FaultCause} {w : Word} (hinv : s.Inv) (hloaded : s.loaded = true)
    (he : FaultRecord.Explains ⟨c, s.beginCycle.advancePc.ia, w⟩ (s.beginCycle.advancePc.raise c w)) :
    (s.beginCycle.advancePc.raise c w).Inv where
  cfgValid := hinv.cfgValid
  memWf := hinv.memWf
  cycInBatch := hinv.cycInBatch
  notDirty := hinv.notDirty
  haltExplained := by rintro r ⟨⟩; exact he
  waitsInReset h := by cases hloaded.symm.trans h

/-- A cycle whose instruction raises no fault keeps the invariant. -/
theorem inv_endCycle {i : Instr} {s u : State} (hinv : s.Inv) (hloaded : s.loaded = true)
    (hexec : exec i s.beginCycle.advancePc = .next u) (hu : u.halt = none) : u.endCycle.Inv := by
  have hsame := exec_same_surroundings hexec
  have hcfg : u.cfg = s.cfg := hsame.cfg
  have hmem := exec_memory_wf hexec hinv.memWf
  have hcyc : u.cyc < u.cfg.cyclesPerTick := by rw [hcfg, hsame.cyc]; exact hinv.cycInBatch
  exact
    { cfgValid := by rw [State.endCycle_cfg, hcfg]; exact hinv.cfgValid
      memWf := by rw [State.endCycle_cfg, State.endCycle_mem, hcfg]; exact hmem
      cycInBatch := by rw [State.endCycle_cfg]; exact State.endCycle_cyc_lt hcyc
      notDirty := State.endCycle_dirty hu
      haltExplained := fun r hr => by rw [State.endCycle_halt, hu] at hr; cases hr
      waitsInReset := fun h => by
        rw [State.endCycle_loaded, hsame.loaded] at h
        cases hloaded.symm.trans h }

/-- Settles O19: a step either takes a fault, which changes nothing but pc and the record, or ends a cycle whose
instruction kept the parameters and the canonical memory. -/
theorem everyStepKeepsTheInvariant : Obligations.EveryStepKeepsTheInvariant := by
  unfold Obligations.EveryStepKeepsTheInvariant
  intro s t hinv hstep
  obtain ⟨⟨hrun, hloaded⟩, ⟨hd, rfl⟩ | ⟨i, u, hd, hexec, rfl⟩⟩ := step_cases hstep
  · exact inv_raise hinv hloaded (explains_unknown (s := s.beginCycle) hd)
  · cases hu : u.halt with
    | none => exact inv_endCycle hinv hloaded hexec hu
    | some r =>
      obtain ⟨c, hc, rfl⟩ := exec_raises hexec hrun hu
      rw [State.endCycle_fault hu]
      exact inv_raise hinv hloaded (explains_of_raises (s := s.beginCycle) hd hc)

/-- Settles O20: neither a fault nor an instruction nor the end of a cycle writes the parameters. -/
theorem noStepChangesTheParameters : Obligations.NoStepChangesTheParameters := by
  unfold Obligations.NoStepChangesTheParameters
  intro s t hstep
  obtain ⟨-, ⟨-, rfl⟩ | ⟨i, u, -, hexec, rfl⟩⟩ := step_cases hstep
  · rfl
  · rw [State.endCycle_cfg, (exec_same_surroundings hexec).cfg]
    rfl

end Sys2Proof.Machine
end

section
/-! Which instructions write which piece of state, the rules over all instructions (spec/10_state.md R22 to R29). -/

namespace Sys2Proof.Machine

open Sys2Proof.Stmt

/-- Settles O37: a fault and the end of a cycle leave I as it was, and so does every other instruction. -/
theorem onlyThreeInstructionsChangeTheIndex : Obligations.OnlyThreeInstructionsChangeTheIndex := by
  unfold Obligations.OnlyThreeInstructionsChangeTheIndex
  intro s t hstep hne
  obtain ⟨-, ⟨-, rfl⟩ | ⟨i, u, hd, hexec, rfl⟩⟩ := step_cases hstep
  · exact absurd rfl hne
  · rw [State.endCycle_idx] at hne
    exact ⟨i, hd, not_imp_comm.1 (exec_idx_frame hexec) hne⟩

/-- Settles O50: a fault and the end of a cycle leave the display as it was, and so does every other instruction. -/
theorem onlyDrawAndClearChangeTheDisplay : Obligations.OnlyDrawAndClearChangeTheDisplay := by
  unfold Obligations.OnlyDrawAndClearChangeTheDisplay
  intro s t hstep hne
  obtain ⟨-, ⟨-, rfl⟩ | ⟨i, u, hd, hexec, rfl⟩⟩ := step_cases hstep
  · exact absurd rfl hne
  · rw [State.endCycle_disp] at hne
    obtain rfl | ⟨x, y, n, rfl⟩ := not_imp_comm.1 (exec_disp_frame hexec) hne
    · exact .inl hd
    · exact .inr ⟨x, y, n, hd⟩

/-- Settles O51: the frame of the registers, read off what an instruction can do. -/
theorem registersChangeOnlyAsTheTableOfWritersSays : Obligations.RegistersChangeOnlyAsTheTableOfWritersSays := by
  unfold Obligations.RegistersChangeOnlyAsTheTableOfWritersSays
  intro i s t r hexec hr
  exact exec_v_frame hexec hr

/-- Settles O52: a fault and the end of a cycle leave the stack as it was, and so does every instruction but call and
return, which move its depth by one. -/
theorem onlyCallAndReturnTouchTheStack : Obligations.OnlyCallAndReturnTouchTheStack := by
  unfold Obligations.OnlyCallAndReturnTouchTheStack
  intro s t hstep
  obtain ⟨-, ⟨-, rfl⟩ | ⟨i, u, hd, hexec, rfl⟩⟩ := step_cases hstep
  · exact ⟨fun _ _ => ⟨rfl, rfl⟩, Nat.le_succ _, Nat.le_succ _, fun _ _ => rfl⟩
  · rw [State.endCycle_stack, State.endCycle_sp, hd]
    refine ⟨fun hcall hret => ?_, exec_stack_in_use (s := s.beginCycle.advancePc) hexec⟩
    exact exec_stack_frame (s := s.beginCycle.advancePc) hexec (fun nnn e => hcall nnn (e ▸ rfl)) (fun e => hret (e ▸ rfl))

end Sys2Proof.Machine
end

section
/-! How each instruction leaves pc (spec/10_state.md R26). -/

namespace Sys2Proof.Machine

open Sys2Proof.Stmt

/-- The key a register selects is pressed (R118, R122). -/
theorem State.pressed_keyOf (s : State) (x : Reg) : s.pressed (s.keyOf x) = s.keys[s.v[x].toNat % 16]'(by omega) := by
  rw [s.keyOf_eq x ⟨s.v[x].toNat % 16, by omega⟩ rfl]
  rfl

/-- The target of jump-indexed (R120). -/
theorem add_setWidth_eq (a : Addr) (b : Byte) : a + b.setWidth 12 = BitVec.ofNat 12 (a.toNat + b.toNat) := by
  apply BitVec.eq_of_toNat_eq
  simp

/-- Settles O28: the instructions that name pc one by one; every other one leaves it as the fetch set it. -/
theorem pcAfterEachInstruction : Obligations.PcAfterEachInstruction := by
  unfold Obligations.PcAfterEachInstruction
  intro i s t h
  cases i
  case call nnn =>
    rcases s.sp_cases' with hsp | ⟨k, hk⟩
    · rw [exec_call_full hsp] at h; cases h
      simp [pcAfter, hsp]
    · rw [exec_call_free hk] at h; cases h
      have hne : k.val ≠ 16 := by omega
      simp [pcAfter, hk, hne]
  case ret =>
    rcases s.sp_cases with hsp | ⟨k, hk⟩
    · rw [exec_ret_empty hsp] at h; cases h
      simp [pcAfter, hsp]
    · rw [exec_ret_used hk] at h; cases h
      simp [pcAfter, hk]
  case jumpIndexed nnn => cases h; exact add_setWidth_eq nnn s.v[0]
  case skipEqImm | skipEqReg | skipNeqImm | skipNeqReg => cases h; simp [pcAfter, State.reg]
  case skipKey x | skipNokey x =>
    cases h
    rcases Bool.eq_false_or_eq_true (s.keys[s.v[x].toNat % 16]'(by omega)) with hk | hk <;>
      simp [pcAfter, s.pressed_keyOf, -Fin.getElem_fin, hk]
  case waitKey x =>
    by_cases hkey : ∃ k : Key, s.keys[k] = true
    · obtain ⟨b, p, hx⟩ := exec_waitKey_deliver hkey x
      rw [hx] at h; cases h
      exact (if_pos hkey).symm
    · rw [exec_waitKey_retry hkey] at h; cases h
      exact (if_neg hkey).symm
  case drawSprite x y n =>
    by_cases hout : DrawsOutside s s.v[x].toNat s.v[y].toNat n
    · rcases exec_drawSprite_of_drawsOutside hout with ⟨-, hx⟩ | ⟨-, hx⟩ <;> rw [hx] at h <;> cases h
      exact (if_pos hout).symm
    · rw [exec_drawSprite_drawn hout] at h; cases h
      exact (if_neg hout).symm
  case storeRegs x => cases h; rw [storeRegs_eq]; rfl
  case loadRegs x => cases h; rw [loadRegs_eq]; rfl
  all_goals cases h; rfl

end Sys2Proof.Machine
end

section
/-! No instruction reads the sound timer (spec/10_state.md R27). -/

namespace Sys2Proof.Machine

open Sys2Proof.Stmt

/-- A loop whose body neither reads nor writes ST neither reads nor writes it. -/
theorem forUpTo_st {f : Nat → State → State} (hf : ∀ k s b, f k { s with st := b } = { f k s with st := b }) (n : Nat)
    (s : State) (b : Byte) : forUpTo n f { s with st := b } = { forUpTo n f s with st := b } := by
  induction n with
  | zero => rfl
  | succ n ih => rw [forUpTo, ih, hf]; rfl

/-- An instruction other than set-sound neither reads nor writes ST. -/
theorem exec_st {i : Instr} {s t : State} (h : exec i s = .next t) (hi : ∀ x, i ≠ .setSound x) (b : Byte) :
    exec i { s with st := b } = .next { t with st := b } := by
  cases i
  case setSound x => exact absurd rfl (hi x)
  case call nnn =>
    rcases s.sp_cases' with hsp | ⟨k, hk⟩
    · rw [exec_call_full hsp] at h; cases h
      exact exec_call_full (s := { s with st := b }) hsp nnn
    · rw [exec_call_free hk] at h; cases h
      exact exec_call_free (s := { s with st := b }) hk nnn
  case ret =>
    rcases s.sp_cases with hsp | ⟨k, hk⟩
    · rw [exec_ret_empty hsp] at h; cases h
      exact exec_ret_empty (s := { s with st := b }) hsp
    · rw [exec_ret_used hk] at h; cases h
      exact exec_ret_used (s := { s with st := b }) hk
  case storeRegs x =>
    cases h
    rw [exec, execStoreRegs, forUpTo_st fun _ _ _ => rfl]
  case loadRegs x =>
    cases h
    rw [exec, execLoadRegs, forUpTo_st fun _ _ _ => rfl]
  case drawSprite x y n =>
    by_cases hout : DrawsOutside s s.v[x].toNat s.v[y].toNat n
    · rcases exec_drawSprite_of_drawsOutside hout with ⟨hfault, hx⟩ | ⟨-, hx⟩ <;> rw [hx] at h <;> cases h
      rcases exec_drawSprite_of_drawsOutside (s := { s with st := b }) hout with ⟨-, hx'⟩ | ⟨hreplicate, -⟩
      · exact hx'
      · cases hfault.symm.trans hreplicate
    · rw [exec_drawSprite_drawn hout] at h; cases h
      exact exec_drawSprite_drawn (s := { s with st := b }) hout
  all_goals cases h; rfl

/-- Settles O47: set-sound overwrites ST, and every other instruction carries it along. -/
theorem noInstructionReadsTheSoundTimer : Obligations.NoInstructionReadsTheSoundTimer := by
  unfold Obligations.NoInstructionReadsTheSoundTimer
  intro i s t b h
  by_cases hi : ∃ x, i = .setSound x
  · rw [if_pos hi]
    obtain ⟨x, rfl⟩ := hi
    cases h
    rfl
  · rw [if_neg hi]
    exact exec_st h (fun x e => hi ⟨x, e⟩) b

end Sys2Proof.Machine
end

section
/-! The flag register (spec/10_state.md R22). -/

namespace Sys2Proof.Machine

open Sys2Proof.Stmt

/-- A flag-writing instruction with another destination leaves its flag in V[15] (R141). -/
theorem State.writeFlagged_v_flag {x : Reg} (hx : x ≠ 15) (s : State) (f b : Byte) :
    (s.writeFlagged x f b).v[(15 : Reg)] = f :=
  (s.reg_writeFlagged x flagReg f b).trans ((if_neg hx).trans (if_pos rfl))

/-- The flags of the five ALU instructions are flag bytes. -/
theorem writeFlagged_flagByte {x : Reg} (hx : x ≠ 15) (s : State) (p : Bool) (b : Byte) :
    (s.writeFlagged x (flagByte p) b).v[(15 : Reg)] = 0 ∨ (s.writeFlagged x (flagByte p) b).v[(15 : Reg)] = 1 := by
  rw [State.writeFlagged_v_flag hx]
  exact flagByte_cases p

theorem setReg_flagByte (s : State) (p : Bool) :
    (s.setReg flagReg (flagByte p)).v[(15 : Reg)] = 0 ∨ (s.setReg flagReg (flagByte p)).v[(15 : Reg)] = 1 := by
  have h : (s.setReg flagReg (flagByte p)).v[(15 : Reg)] = flagByte p := s.reg_setReg_same flagReg _
  rw [h]
  exact flagByte_cases p

/-- Settles O34: the flag every one of the seven instructions writes is a flag byte. -/
theorem flagWritesStoreZeroOrOne : Obligations.FlagWritesStoreZeroOrOne := by
  unfold Obligations.FlagWritesStoreZeroOrOne
  intro s t x y g n
  refine ⟨fun i hi hx h => ?_, fun h => ?_, fun hin h => ?_⟩
  · simp only [List.mem_cons, List.not_mem_nil, or_false] at hi
    rcases hi with rfl | rfl | rfl | rfl | rfl <;> cases h <;> exact writeFlagged_flagByte hx s _ _
  · cases h
    exact setReg_flagByte s _
  · rw [exec_drawSprite_drawn hin] at h; cases h
    exact setReg_flagByte s _

end Sys2Proof.Machine
end

section
/-! The reset state (spec/10_state.md R36). -/

namespace Sys2Proof.Machine

open Sys2Proof.Stmt

/-- A byte whose reset content R36 gives reads as that after reset. -/
theorem resetFor_readByte {c : Config} {a : Addr} {b : Byte} (h : background c a.toNat = some b) (p : Inputs) :
    (State.resetFor c p).readByte a = b := by
  show (background c a.toNat).getD _ = b
  rw [h, Option.getD_some]

/-- The font stands from 0x000 (R36, R59). -/
theorem background_font {c : Config} (hc : c.Valid) {a : Nat} (ha : a < 0x50) :
    ∃ b, c.font[a]? = some b ∧ background c a = some b := by
  obtain ⟨-, -, -, -, hfont⟩ := hc
  have hlt : a < c.font.length := by omega
  exact ⟨c.font[a], List.getElem?_eq_getElem hlt, by rw [background, if_pos ha, List.getElem?_eq_getElem hlt]⟩

/-- The program region is zero (R36, R58). -/
theorem background_program {c : Config} {a : Nat} (hlo : 0x200 ≤ a) (hhi : a < c.stackLow) :
    background c a = some 0 := by
  have hfont : ¬ a < 0x50 := by omega
  rw [background, if_neg hfont, if_pos ⟨hlo, hhi⟩]

theorem resetFor_holdsResetValues {c : Config} (hc : c.Valid) (p : Inputs) : HoldsResetValues (State.resetFor c p) := by
  refine ⟨fun r => ?_, fun k => ?_, fun y x => ?_, fun a ha => ?_, fun a hlo hhi => ?_, rfl, rfl, rfl, rfl, rfl, rfl,
    rfl, rfl⟩
  · simp [State.resetFor]
  · simp [State.resetFor]
  · simp [State.resetFor, blankDisplay]
  · obtain ⟨b, hfont, hb⟩ := background_font hc ha
    rw [resetFor_readByte hb]
    exact hfont
  · exact resetFor_readByte (background_program hlo hhi) p

/-- Settles O16: the default font byte by byte, and the values of the reset state field by field. -/
theorem resetGivesTheStatedValues : Obligations.ResetGivesTheStatedValues := by
  unfold Obligations.ResetGivesTheStatedValues
  exact ⟨by decide, fun c p hc => ⟨rfl, resetFor_holdsResetValues hc p⟩⟩

theorem resetFor_inv {c : Config} (hc : c.Valid) (p : Inputs) : (State.resetFor c p).Inv where
  cfgValid := hc
  memWf := Memory.nil_wf c
  cycInBatch := hc.1
  notDirty := rfl
  haltExplained := by rintro r ⟨⟩
  waitsInReset _ := rfl

theorem configDefault_valid : Config.default.Valid := by decide

/-- Settles O18: the parameters are within their bounds, nothing is listed in memory, and no fault stands. -/
theorem resetMeetsTheInvariant : Obligations.ResetMeetsTheInvariant := by
  unfold Obligations.ResetMeetsTheInvariant
  exact ⟨fun _ p hc => resetFor_inv hc p, resetFor_inv configDefault_valid _⟩

end Sys2Proof.Machine
end

section
/-! SUPPORT. What the two stores leave in memory, and what every other instruction leaves there (spec/20_memory.md R50,
R51, spec/44_memory_ops.md R160, R161). -/

namespace Sys2Proof.Machine

open Sys2Proof.Stmt

/-- An instruction other than the two stores leaves every byte of memory as it was (R34, R50). -/
theorem exec_readByte_frame {i : Instr} {s t : State} (h : exec i s = .next t) (hi : ¬ WritesMemory i) (a : Addr) :
    t.readByte a = s.readByte a := by
  refine State.readByte_congr (exec_same_surroundings h).cfg ?_ a
  cases exec_effect h with
  | memory hw => exact absurd hw hi
  | _ => rfl

theorem exec_storeRegs_afterStoreRegs {x : Reg} {s t : State} (h : exec (.storeRegs x) s = .next t) (a : Addr) :
    AfterStoreRegs s x a (t.readByte a) := by
  cases h
  obtain ⟨hhit, hmiss⟩ := storeRegs_readByte s (x.val + 1) (by omega) a
  refine ⟨fun k hk ha => ?_, fun hne => hmiss fun k hk => ?_⟩
  · exact (hhit k.val (Nat.lt_succ_of_le hk) ha).trans (congrArg s.reg (Fin.ofNat_val_eq_self k))
  · exact hne ⟨k, by omega⟩ (Nat.le_of_lt_succ hk)

/-- The three writes of store-bcd, seen from one address: the last one that hit it counts. -/
theorem exec_storeBcd_readByte {x : Reg} {s t : State} (h : exec (.storeBcd x) s = .next t) (a : Addr) :
    t.readByte a =
      if effAddr s.idx 2 = a then bcdOnes s.cfg (s.reg x)
      else if effAddr s.idx 1 = a then bcdTens (s.reg x)
      else if effAddr s.idx 0 = a then bcdHundreds (s.reg x)
      else s.readByte a := by
  cases h
  simp only [State.readByte_writeByte]

theorem exec_storeBcd_afterStoreBcd {x : Reg} {s t : State} (h : exec (.storeBcd x) s = .next t) (a : Addr) :
    AfterStoreBcd s x a (t.readByte a) := by
  have h01 : effAddr s.idx 1 ≠ effAddr s.idx 0 := (effAddr_ne s.idx (by decide) (by decide)).symm
  have h02 : effAddr s.idx 2 ≠ effAddr s.idx 0 := (effAddr_ne s.idx (by decide) (by decide)).symm
  have h12 : effAddr s.idx 2 ≠ effAddr s.idx 1 := (effAddr_ne s.idx (by decide) (by decide)).symm
  rw [exec_storeBcd_readByte h a]
  refine ⟨?_, ?_, ?_, fun hmiss => ?_⟩
  · rintro rfl
    rw [if_neg h02, if_neg h01, if_pos rfl]; rfl
  · rintro rfl
    rw [if_neg h12, if_pos rfl]; rfl
  · rintro rfl
    rw [if_pos rfl]; rfl
  · rw [if_neg (hmiss 2 (by decide)).symm, if_neg (hmiss 1 (by decide)).symm, if_neg (hmiss 0 (by decide)).symm]

end Sys2Proof.Machine
end

section
/-! Memory over a step: its writers, and the fetch after a store (spec/20_memory.md R50, R63). -/

namespace Sys2Proof.Machine

open Sys2Proof.Stmt

/-- The end of a cycle touches neither the parameters nor memory, so every byte reads as before it. -/
@[simp] theorem State.readByte_endCycle (s : State) (a : Addr) : s.endCycle.readByte a = s.readByte a :=
  State.readByte_congr s.endCycle_cfg s.endCycle_mem a

/-- Settles O42: a fault and the end of a cycle leave every byte as it was, and so does every other instruction. -/
theorem onlyTheTwoStoresChangeMemory : Obligations.OnlyTheTwoStoresChangeMemory := by
  unfold Obligations.OnlyTheTwoStoresChangeMemory
  intro s t hstep hbcd hregs a
  obtain ⟨-, ⟨-, rfl⟩ | ⟨i, u, hd, hexec, rfl⟩⟩ := step_cases hstep
  · rfl
  · have hi : ¬ WritesMemory i := by
      rintro (⟨x, rfl⟩ | ⟨x, rfl⟩)
      · exact hbcd x hd
      · exact hregs x hd
    rw [State.readByte_endCycle]
    exact exec_readByte_frame hexec hi a

/-- What a step on a word that decodes did. -/
theorem step_exec_of_decodeWord {s t : State} {i : Instr} (h : step s = .next t)
    (hd : decodeWord s.fetchWord = some i) : ∃ u, exec i s.beginCycle.advancePc = .next u ∧ t = u.endCycle := by
  obtain ⟨-, ⟨hnone, -⟩ | ⟨j, u, hj, hexec, ht⟩⟩ := step_cases h
  · cases hnone.symm.trans hd
  · cases hj.symm.trans hd
    exact ⟨u, hexec, ht⟩

/-- After an instruction that leaves pc as the fetch set it, the next fetch reads the two bytes behind the instruction,
as the instruction left them (R26, R91). -/
theorem fetchWord_endCycle_of_pcAfter {i : Instr} {s u : State} (h : exec i s.beginCycle.advancePc = .next u)
    (hpc : pcAfter i s.beginCycle.advancePc = s.pc + 2) :
    u.endCycle.fetchWord = wordOfBytes (u.readByte (s.pc + 2)) (u.readByte (s.pc + 3)) := by
  have hu : u.pc = s.pc + 2 := (pcAfterEachInstruction i _ u h).trans hpc
  rw [State.fetchWord, State.readWord, State.endCycle_pc, State.readByte_endCycle, State.readByte_endCycle, hu,
    BitVec.add_assoc]
  rfl

/-- Settles O43: both stores leave pc as the fetch set it, so the next fetch reads the two bytes behind the store, and
each of them is what the store left at its address. -/
theorem aStoreIsSeenByTheNextFetch : Obligations.AStoreIsSeenByTheNextFetch := by
  unfold Obligations.AStoreIsSeenByTheNextFetch
  intro s t x hstep
  refine ⟨fun hd => ?_, fun hd => ?_⟩ <;> obtain ⟨u, hexec, rfl⟩ := step_exec_of_decodeWord hstep hd
  · exact ⟨_, _, fetchWord_endCycle_of_pcAfter hexec rfl, exec_storeRegs_afterStoreRegs hexec _,
      exec_storeRegs_afterStoreRegs hexec _⟩
  · exact ⟨_, _, fetchWord_endCycle_of_pcAfter hexec rfl, exec_storeBcd_afterStoreBcd hexec _,
      exec_storeBcd_afterStoreBcd hexec _⟩

end Sys2Proof.Machine
end

section
/-! SUPPORT. The second tier of the decoder, and the decoder undoing the encoder (spec/30_encoding.md R73, R75, R76). -/

namespace Sys2Proof

theorem decodeWord_group8 {w : Word} (h : fieldOp w = 0x8) : decodeWord w = decodeGroup8 w := by
  simp [decodeWord, h]

theorem decodeWord_groupE {w : Word} (h : fieldOp w = 0xE) : decodeWord w = decodeGroupE w := by
  simp [decodeWord, h]

theorem decodeWord_groupF {w : Word} (h : fieldOp w = 0xF) : decodeWord w = decodeGroupF w := by
  simp [decodeWord, h]

/-- The one operand that is not bounded by its type comes back as its low four bits (R72). -/
theorem decodeWord_encode_drawSprite (x y : Reg) (n : Nat) :
    decodeWord (encode (.drawSprite x y n)) = some (.drawSprite x y (n % 16)) := by
  simp [encode, decodeWord]

/-- The word of a well-formed instruction decodes to it.  Well-formedness is used for the row count of a sprite
alone. -/
theorem decodeWord_encode {i : Instr} (hi : i.WellFormed) : decodeWord (encode i) = some i := by
  cases i
  case clearScreen | ret => rfl
  case loadReg | orReg | andReg | xorReg | addReg | subReg | shiftRight | subRegReverse | shiftLeft =>
    rw [encode, decodeWord_group8 (fieldOp_formatXYN _ _ _ _)]
    simp [decodeGroup8]
  case skipKey | skipNokey =>
    rw [encode, decodeWord_groupE (fieldOp_formatXK _ _ _)]
    simp [decodeGroupE]
  case readDelay | waitKey | setDelay | setSound | addIndex | loadFontPtr | storeBcd | storeRegs | loadRegs =>
    rw [encode, decodeWord_groupF (fieldOp_formatXK _ _ _)]
    simp [decodeGroupF]
  case drawSprite x y n =>
    have hn : n < 16 := of_decide_eq_true hi
    rw [decodeWord_encode_drawSprite, Nat.mod_eq_of_lt hn]
  all_goals simp [encode, decodeWord]

/-- What the decoder gives is well formed: a row count is the low four bits of itself, for its word decodes to both. -/
theorem wellFormed_of_decodeWord {w : Word} {i : Instr} (h : decodeWord w = some i) : i.WellFormed := by
  cases i
  case drawSprite x y n =>
    have hn := decodeWord_encode_drawSprite x y n
    rw [encode_of_decodeWord h, h, Option.some_inj, Instr.drawSprite.injEq] at hn
    obtain ⟨-, -, hn⟩ := hn
    exact decide_eq_true (by omega)
  all_goals rfl

end Sys2Proof
end

section
/-! SUPPORT. The mask and match of a row against the decoder (spec/30_encoding.md R75). -/

namespace Sys2Proof

/-! ## What a masked word keeps of the fields -/

theorem fieldOp_of_mask {w p : Word} (h : w &&& 0xF000 = p) : fieldOp w = fieldOp p := by
  rw [← h, eq_formatA w, formatA_mask, fieldOp_formatA, fieldOp_formatA]

theorem fieldOp_of_mask_n {w p : Word} (h : w &&& 0xF00F = p) : fieldOp w = fieldOp p := by
  rw [← h, eq_formatXYN w, formatXYN_mask_n, fieldOp_formatXYN, fieldOp_formatXYN]

theorem fieldN_of_mask_n {w p : Word} (h : w &&& 0xF00F = p) : fieldN w = fieldN p := by
  rw [← h, eq_formatXYN w, formatXYN_mask_n, fieldN_formatXYN, fieldN_formatXYN]

theorem fieldOp_of_mask_kk {w p : Word} (h : w &&& 0xF0FF = p) : fieldOp w = fieldOp p := by
  rw [← h, eq_formatXK w, formatXK_mask_kk, fieldOp_formatXK, fieldOp_formatXK]

theorem fieldKK_of_mask_kk {w p : Word} (h : w &&& 0xF0FF = p) : fieldKK w = fieldKK p := by
  rw [← h, eq_formatXK w, formatXK_mask_kk, fieldKK_formatXK, fieldKK_formatXK]

/-! ## The rows -/

/-- A word that matches a row decodes to an instruction of that row: the mask keeps the fields the decoder
dispatches on. -/
theorem mnemonic_decodeWord_of_matches_row {w : Word} {i : Instr} (h : w &&& i.row.mask = i.row.pattern) :
    (decodeWord w).map Instr.mnemonic = some i.mnemonic := by
  cases i <;> simp only [Instr.row] at h
  case clearScreen | ret =>
    have hw := (BitVec.and_allOnes (x := w)).symm.trans h
    rw [hw]; rfl
  case loadReg | orReg | andReg | xorReg | addReg | subReg | shiftRight | subRegReverse | shiftLeft =>
    rw [decodeWord_group8 (fieldOp_of_mask_n h), decodeGroup8, fieldN_of_mask_n h]
    rfl
  case skipKey | skipNokey =>
    rw [decodeWord_groupE (fieldOp_of_mask_kk h), decodeGroupE, fieldKK_of_mask_kk h]
    rfl
  case readDelay | waitKey | setDelay | setSound | addIndex | loadFontPtr | storeBcd | storeRegs | loadRegs =>
    rw [decodeWord_groupF (fieldOp_of_mask_kk h), decodeGroupF, fieldKK_of_mask_kk h]
    rfl
  all_goals
    rw [decodeWord, fieldOp_of_mask h]
    rfl

/-- The word of an instruction matches the instruction's row. -/
theorem encode_and_rowMask (i : Instr) : encode i &&& i.row.mask = i.row.pattern := by
  cases i
  case clearScreen | ret => rfl
  case jump | call | jumpIndexed | loadIndex => exact formatA_mask _ _
  case skipEqImm | skipNeqImm | loadImm | addImm | randomAnd => exact formatXK_mask _ _ _
  case skipEqReg | skipNeqReg | drawSprite => exact formatXYN_mask _ _ _ _
  case loadReg | orReg | andReg | xorReg | addReg | subReg | shiftRight | subRegReverse | shiftLeft =>
    exact formatXYN_mask_n _ _ _ _
  all_goals exact formatXK_mask_kk _ _ _

/-- The 34 rows of the opcode table in the order of `Instr`, each by one instruction that stands in it. -/
def rowRepresentatives : List Instr :=
  [.clearScreen, .ret, .jump 0, .call 0, .skipEqImm 0 0, .skipNeqImm 0 0, .skipEqReg 0 0 0, .skipNeqReg 0 0 0,
    .skipKey 0, .skipNokey 0, .jumpIndexed 0, .loadImm 0 0, .addImm 0 0, .loadReg 0 0, .orReg 0 0, .andReg 0 0,
    .xorReg 0 0, .addReg 0 0, .subReg 0 0, .shiftRight 0 0, .subRegReverse 0 0, .shiftLeft 0 0, .loadIndex 0,
    .addIndex 0, .loadFontPtr 0, .storeBcd 0, .storeRegs 0, .loadRegs 0, .readDelay 0, .waitKey 0, .setDelay 0,
    .setSound 0, .randomAnd 0 0, .drawSprite 0 0 0]

/-- The row of a mnemonic, looked up among the representatives. -/
def rowNamed (m : String) : Option OpcodeRow := (rowRepresentatives.find? (·.mnemonic == m)).map Instr.row

theorem rowNamed_mnemonic (i : Instr) : rowNamed i.mnemonic = some i.row := by
  cases i <;> rfl

/-- A mnemonic names one row. -/
theorem row_eq_of_mnemonic_eq {i j : Instr} (h : j.mnemonic = i.mnemonic) : j.row = i.row :=
  Option.some.inj (by rw [← rowNamed_mnemonic, ← rowNamed_mnemonic, h])

end Sys2Proof
end

section
/-! SUPPORT. The unknown words (spec/30_encoding.md R80). -/

namespace Sys2Proof

theorem fieldOp_eq_div (w : Word) : fieldOp w = w.toNat / 4096 := by
  have := w.isLt
  simp [fieldOp, Nat.shiftRight_eq_div_pow]
  omega

theorem fieldN_eq_mod (w : Word) : fieldN w = w.toNat % 16 := by simp [fieldN]

theorem toNat_fieldKK (w : Word) : (fieldKK w).toNat = w.toNat % 256 := by simp [fieldKK]

theorem decodeGroup0_eq_none_iff (w : Word) : decodeGroup0 w = none ↔ w ≠ 0x00E0 ∧ w ≠ 0x00EE := by
  unfold decodeGroup0
  split <;> simp_all

/-- Group 0x8 leaves out seven of the sixteen selectors. -/
theorem decodeGroup8_eq_none_iff (w : Word) :
    decodeGroup8 w = none ↔ fieldN w ∈ [8, 9, 0xA, 0xB, 0xC, 0xD, 0xF] := by
  have hlt : fieldN w < 16 := BitVec.isLt _
  unfold decodeGroup8
  generalize fieldN w = n at hlt ⊢
  interval_cases n <;> simp

theorem decodeGroupE_eq_none_iff (w : Word) : decodeGroupE w = none ↔ (fieldKK w).toNat ∉ [0x9E, 0xA1] := by
  unfold decodeGroupE
  split <;> simp_all

theorem decodeGroupF_eq_none_iff (w : Word) :
    decodeGroupF w = none ↔ (fieldKK w).toNat ∉ [0x07, 0x0A, 0x15, 0x18, 0x1E, 0x29, 0x33, 0x55, 0x65] := by
  unfold decodeGroupF
  split <;> simp_all

/-- A word is unknown in the four groups with a second tier alone, and there as the group says: of the sixteen groups,
the other twelve decode every word. -/
theorem decodeWord_eq_none_iff (w : Word) :
    decodeWord w = none ↔
      (fieldOp w = 0x0 ∧ decodeGroup0 w = none) ∨ (fieldOp w = 0x8 ∧ decodeGroup8 w = none) ∨
      (fieldOp w = 0xE ∧ decodeGroupE w = none) ∨ (fieldOp w = 0xF ∧ decodeGroupF w = none) := by
  have hlt : fieldOp w < 16 := BitVec.isLt _
  unfold decodeWord
  generalize fieldOp w = op at hlt ⊢
  interval_cases op <;> simp

end Sys2Proof
end

section
/-! Decoding and encoding (spec/30_encoding.md). -/

namespace Sys2Proof.Machine

open Sys2Proof.Stmt

/-- Settles O2: the two bytes of a word assemble to the word, and the word decodes to the instruction it encodes. -/
theorem decodingAnEncodedInstructionGivesItBack : Obligations.DecodingAnEncodedInstructionGivesItBack := by
  unfold Obligations.DecodingAnEncodedInstructionGivesItBack
  intro i rest hi
  have hword := decodeWord_encode hi
  exact ⟨hword, by rw [encodeBytes, decodeBytes_wordBytes, hword]⟩

/-- Settles O3: a word that decodes is the word of what it decodes to, and decoding that word again bounds a row count. -/
theorem encodingADecodedWordGivesItBack : Obligations.EncodingADecodedWordGivesItBack := by
  unfold Obligations.EncodingADecodedWordGivesItBack
  exact fun w i hd => ⟨encode_of_decodeWord hd, wellFormed_of_decodeWord hd⟩

/-- Settles O4: the mask keeps what the decoder dispatches on; and a word that decodes is the word of its instruction,
which matches the row its mnemonic names. -/
theorem aWordSpellsAnInstructionIffItMatchesItsRow : Obligations.AWordSpellsAnInstructionIffItMatchesItsRow := by
  unfold Obligations.AWordSpellsAnInstructionIffItMatchesItsRow
  refine fun w i => ⟨fun h => Option.map_eq_some_iff.mp (mnemonic_decodeWord_of_matches_row h), ?_⟩
  rintro ⟨j, hd, hname⟩
  rw [← encode_of_decodeWord hd, ← row_eq_of_mnemonic_eq hname]
  exact encode_and_rowMask j

/-- Settles O5: the unknown words of each group with a second tier; and the fault takes pc back to the word, which is
the only field the fetch had changed. -/
theorem unknownWordsAreExactlyTheListedOnesAndFault : Obligations.UnknownWordsAreExactlyTheListedOnesAndFault := by
  unfold Obligations.UnknownWordsAreExactlyTheListedOnesAndFault
  refine ⟨fun w => ?_, fun s hrun hloaded hd => ?_⟩
  · rw [decodeWord_eq_none_iff, decodeGroup0_eq_none_iff, decodeGroup8_eq_none_iff, decodeGroupE_eq_none_iff,
      decodeGroupF_eq_none_iff, fieldOp_eq_div, fieldN_eq_mod, toNat_fieldKK]
  · rw [step_unknown hrun hloaded hd, State.raise, State.ia_advancePc]
    rfl

/-- Settles O1: the decoder evaluated on each word. -/
theorem sampleWordsDecodeAsTheSpecLists : Obligations.SampleWordsDecodeAsTheSpecLists := by
  unfold Obligations.SampleWordsDecodeAsTheSpecLists Spells
  decide

end Sys2Proof.Machine
end

section
/-! SUPPORT. What a step does to the key latch and its source, the render request and the timers, and the steps that stop
(spec/40_fetch_decode_cycle.md R95 to R98). -/

namespace Sys2Proof.Machine

open Sys2Proof.Stmt

@[simp] theorem State.endCycle_keys (s : State) : s.endCycle.keys = s.keys := by simp [s.endCycle_same]
@[simp] theorem State.endCycle_inputs (s : State) : s.endCycle.inputs = s.inputs := by simp [s.endCycle_same]

/-- A step of a running core whose instruction stops the machine. -/
theorem step_decoded_fault {s : State} {i : Instr} {r : Fault} (h : s.halt = none) (hl : s.loaded = true)
    (hd : decodeWord s.fetchWord = some i) (hx : exec i s.beginCycle.advancePc = .fault r) : step s = .fault r := by
  simp [step, runCycle, h, hl, hd, hx]

/-- A step of a running core whose instruction is refused. -/
theorem step_decoded_refused {s : State} {i : Instr} {r : Refusal} (h : s.halt = none) (hl : s.loaded = true)
    (hd : decodeWord s.fetchWord = some i) (hx : exec i s.beginCycle.advancePc = .refused r) : step s = .refused r := by
  simp [step, runCycle, h, hl, hd, hx]

/-- A step leaves the latch and the source of key vectors as its start left them: neither a fault nor an instruction nor
the end of a cycle touches them (R30, R96). -/
theorem step_keys {s t : State} (h : step s = .next t) :
    t.keys = s.beginCycle.keys ∧ t.inputs.keyVectors = s.beginCycle.inputs.keyVectors := by
  obtain ⟨-, ⟨-, rfl⟩ | ⟨i, u, -, hexec, rfl⟩⟩ := step_cases h
  · exact ⟨rfl, rfl⟩
  · have hsame := exec_same_surroundings hexec
    rw [State.endCycle_keys, State.endCycle_inputs]
    exact ⟨hsame.keys, hsame.keyVectors⟩

/-- An instruction that does not fault requests the hand-off iff it is one of the two writers of the display (R31). -/
theorem exec_dirty_iff {i : Instr} {s t : State} (h : exec i s = .next t) (hs : s.dirty = false) (ht : t.halt = none) :
    t.dirty = true ↔ WritesDisplay i := by
  constructor
  · intro hdirty
    cases exec_effect h with
    | display hi => exact hi
    | _ => cases hs.symm.trans hdirty
  · rintro (rfl | ⟨x, y, n, rfl⟩)
    · cases h; rfl
    · rcases execDrawSprite_cases x y n s with ⟨-, b, -, hx⟩ | ⟨-, -, hx⟩ | ⟨-, -, hx⟩ <;>
        rw [exec, hx] at h <;> cases h
      · rfl
      · cases ht

theorem not_raises_clearScreen (s : State) (c : FaultCause) : ¬ Raises .clearScreen s c := by
  cases c <;> simp [Raises]

/-- DT and ST after an instruction: written by set-delay and set-sound alone (R27). -/
theorem exec_timers {i : Instr} {s t : State} (h : exec i s = .next t) :
    t.dt = delayAfter i s ∧ t.st = soundAfter i s := by
  cases i
  case call nnn =>
    rcases s.sp_cases' with hsp | ⟨k, hk⟩
    · rw [exec_call_full hsp] at h; cases h; exact ⟨rfl, rfl⟩
    · rw [exec_call_free hk] at h; cases h; exact ⟨rfl, rfl⟩
  case ret =>
    rcases s.sp_cases with hsp | ⟨k, hk⟩
    · rw [exec_ret_empty hsp] at h; cases h; exact ⟨rfl, rfl⟩
    · rw [exec_ret_used hk] at h; cases h; exact ⟨rfl, rfl⟩
  case drawSprite x y n =>
    rcases execDrawSprite_cases x y n s with ⟨-, b, -, hx⟩ | ⟨-, -, hx⟩ | ⟨-, -, hx⟩ <;>
      rw [exec, hx] at h <;> cases h <;> exact ⟨rfl, rfl⟩
  case storeRegs x => cases h; rw [storeRegs_eq]; exact ⟨rfl, rfl⟩
  case loadRegs x => cases h; rw [loadRegs_eq]; exact ⟨rfl, rfl⟩
  all_goals cases h; exact ⟨rfl, rfl⟩

/-- The end of the N-th cycle of a batch is the tick (R95, R211, R212). -/
theorem State.endCycle_tick {s : State} (h : s.halt = none) (hN : s.cyc + 1 = s.cfg.cyclesPerTick) :
    s.endCycle.cyc = 0 ∧ s.endCycle.dt = countDown s.dt ∧ s.endCycle.st = countDown s.st ∧
    s.endCycle.outputs.cue = (s.outputs.cue || decide (s.st = 1)) := by
  simp [State.endCycle_running h, hN]

/-- The end of any other cycle that did not fault counts it (R95). -/
theorem State.endCycle_count {s : State} (h : s.halt = none) (hN : s.cyc + 1 ≠ s.cfg.cyclesPerTick) :
    s.endCycle.cyc = s.cyc + 1 ∧ s.endCycle.dt = s.dt ∧ s.endCycle.st = s.st ∧
    s.endCycle.outputs.cue = s.outputs.cue := by
  simp [State.endCycle_running h, hN]

end Sys2Proof.Machine
end

section
/-! The cycle (spec/40_fetch_decode_cycle.md R90 to R98). -/

namespace Sys2Proof.Machine

open Sys2Proof.Stmt

/-- Settles O6: the word of the two bytes is the fetched one, and a running core executes what it spells. -/
theorem aStepRunsTheInstructionAtPc : Obligations.AStepRunsTheInstructionAtPc := by
  unfold Obligations.AStepRunsTheInstructionAtPc
  intro s i hrun hloaded hd
  have hfetch : decodeWord s.fetchWord = some i := by rwa [ofNat_add_eq] at hd
  have hpc : { s.beginCycle with pc := BitVec.ofNat 12 (s.pc.toNat + 2) } = s.beginCycle.advancePc := by
    rw [ofNat_add_eq]; rfl
  rw [hpc]
  cases hexec : exec i s.beginCycle.advancePc with
  | next t => exact step_decoded hrun hloaded hfetch hexec
  | fault r => exact step_decoded_fault hrun hloaded hfetch hexec
  | refused r => exact step_decoded_refused hrun hloaded hfetch hexec

/-- Settles O7: the first step stops the run. -/
theorem aHaltedCoreStaysStopped : Obligations.AHaltedCoreStaysStopped := by
  unfold Obligations.AHaltedCoreStaysStopped
  intro s r k hhalt
  exact run_fault (step_halted hhalt) k

/-- Settles O10: the latch and its source move at the start of a step alone, and there at `cyc = 0` alone. -/
theorem keysAreRefreshedExactlyAtTheStartOfABatch : Obligations.KeysAreRefreshedExactlyAtTheStartOfABatch := by
  unfold Obligations.KeysAreRefreshedExactlyAtTheStartOfABatch
  intro s t hstep
  obtain ⟨hkeys, hvectors⟩ := step_keys hstep
  rw [hkeys, hvectors, State.beginCycle_keys, State.beginCycle_inputs]
  refine ⟨fun hcyc => ?_, fun hcyc v rest hlist => ?_⟩
  · rw [if_neg hcyc, if_neg hcyc]
    exact ⟨rfl, rfl⟩
  · rw [if_pos hcyc, if_pos hcyc, Inputs.keyVector, Inputs.afterKeys, hlist]
    exact ⟨rfl, rfl⟩

/-- Settles O11: an instruction requests the hand-off iff it is clear-screen or a draw-sprite that draws, and the end of
the cycle answers the request; a fault requests nothing. -/
theorem theDisplayIsHandedOffExactlyAfterDrawAndClear : Obligations.TheDisplayIsHandedOffExactlyAfterDrawAndClear := by
  unfold Obligations.TheDisplayIsHandedOffExactlyAfterDrawAndClear
  intro s t i hrun hclean hstep hd
  obtain ⟨u, hexec, rfl⟩ := step_exec_of_decodeWord hstep hd
  cases hu : u.halt with
  | some r =>
    rw [State.endCycle_fault hu]
    obtain ⟨c, hc, rfl⟩ := exec_raises hexec hrun hu
    refine ⟨hclean, ?_⟩
    cases i
    case clearScreen => exact absurd hc (not_raises_clearScreen _ c)
    all_goals rfl
  | none =>
    refine ⟨State.endCycle_dirty hu, ?_⟩
    have hrequest := exec_dirty_iff hexec hclean hu
    have hquiet : u.outputs.render = none := by rw [(exec_same_surroundings hexec).outputs]; rfl
    rw [State.endCycle_running hu]
    cases i
    case clearScreen => exact if_pos (hrequest.2 (.inl rfl))
    case drawSprite x y n =>
      exact (if_pos (hrequest.2 (.inr ⟨x, y, n, rfl⟩))).trans (if_pos hu).symm
    all_goals
      refine (if_neg fun hdirty => ?_).trans hquiet
      rcases hrequest.1 hdirty with h | ⟨_, _, _, h⟩ <;> cases h

/-- Settles O12: the end of the cycle counts and ticks from what the instruction left; a fault leaves the state of the
fetch. -/
theorem cyclesAreCountedAndTheNthTicks : Obligations.CyclesAreCountedAndTheNthTicks := by
  unfold Obligations.CyclesAreCountedAndTheNthTicks
  intro s t i hrun hstep hd
  obtain ⟨u, hexec, rfl⟩ := step_exec_of_decodeWord hstep hd
  have hsame := exec_same_surroundings hexec
  have hcyc : u.cyc = s.cyc := hsame.cyc
  have hcfg : u.cfg = s.cfg := hsame.cfg
  have hcue : u.outputs.cue = false := by rw [hsame.outputs]; rfl
  obtain ⟨hdt, hst⟩ : u.dt = delayAfter i s ∧ u.st = soundAfter i s :=
    exec_timers (s := s.beginCycle.advancePc) hexec
  rw [State.endCycle_halt, ← hcyc, ← hcfg, ← hdt, ← hst]
  refine ⟨fun hu hN => ?_, fun hu hN => ?_, fun hu => ?_⟩
  · obtain ⟨hc, hd', hs', ho⟩ := State.endCycle_tick hu hN
    rw [hc, hd', hs', ho, hcue, countDown_toNat, countDown_toNat, Bool.false_or, decide_eq_true_iff]
    exact ⟨rfl, rfl, rfl, Iff.rfl⟩
  · rw [← hcue]
    exact State.endCycle_count hu hN
  · obtain ⟨r, hr⟩ := Option.ne_none_iff_exists'.1 hu
    rw [State.endCycle_fault hr]
    obtain ⟨c, -, rfl⟩ := exec_raises hexec hrun hr
    exact ⟨rfl, rfl, rfl, rfl⟩

end Sys2Proof.Machine
end

section
/-! The delay timer over a run (spec/40_fetch_decode_cycle.md R94, R95). -/

namespace Sys2Proof.Machine

open Sys2Proof.Stmt

/-- A run that ends in a running core began in one. -/
theorem run_halt_none {s t : State} {k : Nat} (h : Sys2Proof.core.run k s = .next t) (ht : t.halt = none) :
    s.halt = none := by
  cases k with
  | zero => cases h; exact ht
  | succ k =>
    obtain ⟨u, hstep, -⟩ := run_succ_cases h
    obtain ⟨⟨hs, -⟩, -⟩ := step_cases hstep
    exact hs

/-- A step that leaves no fault record ran an instruction (R92, R201). -/
theorem decodeWord_of_step_running {s t : State} (h : step s = .next t) (ht : t.halt = none) :
    ∃ i, decodeWord s.fetchWord = some i := by
  obtain ⟨-, ⟨-, rfl⟩ | ⟨i, -, hd, -⟩⟩ := step_cases h
  · cases ht
  · exact ⟨i, hd⟩

theorem delayAfter_of_ne_setDelay {i : Instr} (hi : ∀ x, i ≠ .setDelay x) (s : State) : delayAfter i s = s.dt := by
  cases i
  case setDelay x => exact absurd rfl (hi x)
  all_goals rfl

/-- One cycle without a fault and without set-delay: it ends the batch and DT counts down, or it is counted. -/
theorem step_cyc_dt {s u : State} (hstep : step s = .next u) (hu : u.halt = none)
    (hset : ∀ x, decodeWord s.fetchWord ≠ some (.setDelay x)) :
    (s.cyc + 1 = s.cfg.cyclesPerTick ∧ u.cyc = 0 ∧ u.dt.toNat = s.dt.toNat - 1) ∨
    (s.cyc + 1 ≠ s.cfg.cyclesPerTick ∧ u.cyc = s.cyc + 1 ∧ u.dt.toNat = s.dt.toNat) := by
  obtain ⟨i, hd⟩ := decodeWord_of_step_running hstep hu
  have hdelay : delayAfter i s = s.dt := delayAfter_of_ne_setDelay (fun x e => hset x (e ▸ hd)) s
  obtain ⟨⟨hrun, -⟩, -⟩ := step_cases hstep
  obtain ⟨htick, hcount, -⟩ := cyclesAreCountedAndTheNthTicks s u i hrun hstep hd
  rw [hdelay] at htick hcount
  by_cases hN : s.cyc + 1 = s.cfg.cyclesPerTick
  · obtain ⟨hcyc, hdt, -⟩ := htick hu hN
    exact .inl ⟨hN, hcyc, hdt⟩
  · obtain ⟨hcyc, hdt, -⟩ := hcount hu hN
    exact .inr ⟨hN, hcyc, congrArg _ hdt⟩

/-- Settles O13, by induction on the number of cycles: the first one ends its batch or not, and the rest of the run starts
at the position it leaves. -/
theorem theDelayTimerLosesOnePerBatchOfCycles : Obligations.TheDelayTimerLosesOnePerBatchOfCycles := by
  unfold Obligations.TheDelayTimerLosesOnePerBatchOfCycles
  intro k
  induction k with
  | zero =>
    intro s t hlt hrun _ _
    cases hrun
    rw [Nat.add_zero, Nat.mod_eq_of_lt hlt, Nat.div_eq_of_lt hlt]
    exact ⟨rfl, rfl⟩
  | succ k ih =>
    intro s t hlt hrun ht hset
    obtain ⟨u, hstep, hrest⟩ := run_succ_cases hrun
    have hcfg : u.cfg = s.cfg := noStepChangesTheParameters s u hstep
    have hfirst := step_cyc_dt hstep (run_halt_none hrest ht) fun x => hset 0 s x (Nat.succ_pos k) rfl
    have hulow : u.cyc < u.cfg.cyclesPerTick := by rw [hcfg]; omega
    obtain ⟨hcyc, hdt⟩ := ih u t hulow hrest ht fun j w x hj hw =>
      hset (j + 1) w x (Nat.succ_lt_succ hj) ((run_next hstep j).trans hw)
    rw [hcyc, hdt, hcfg]
    rcases hfirst with ⟨hN, hucyc, hudt⟩ | ⟨-, hucyc, hudt⟩
    · have hsum : s.cyc + (k + 1) = s.cfg.cyclesPerTick + k := by omega
      have hpos : 0 < s.cfg.cyclesPerTick := by omega
      rw [hsum, hucyc, hudt, Nat.zero_add, Nat.add_mod_left, Nat.add_div_left _ hpos]
      exact ⟨rfl, by omega⟩
    · have hsum : s.cyc + (k + 1) = s.cyc + 1 + k := by omega
      rw [hsum, hucyc, hudt]
      exact ⟨rfl, rfl⟩

end Sys2Proof.Machine
end

section
/-! The parked core (spec/40_fetch_decode_cycle.md R101). -/

namespace Sys2Proof.Machine

/-- `t` differs from `s` at most in the timers, which are not above those of `s`, in `cyc`, the keys and the ports
(R101). -/
structure State.OnlyClockMoved (s t : State) : Prop where
  dt : t.dt.toNat ≤ s.dt.toNat
  st : t.st.toNat ≤ s.st.toNat
  frame : t = { s with dt := t.dt, st := t.st, cyc := t.cyc, keys := t.keys, inputs := t.inputs, outputs := t.outputs }

theorem State.OnlyClockMoved.trans {s u t : State} (h : s.OnlyClockMoved u) (h' : u.OnlyClockMoved t) :
    s.OnlyClockMoved t where
  dt := h'.dt.trans h.dt
  st := h'.st.trans h.st
  frame := h'.frame.trans (by rw [h.frame])

theorem countDown_toNat_le (b : Byte) : (countDown b).toNat ≤ b.toNat := by
  rw [countDown_toNat]
  exact Nat.sub_le _ _

/-- The end of a cycle without fault and without render request moves the clock alone. -/
theorem State.onlyClockMoved_endCycle {s : State} (hrun : s.halt = none) (hclean : s.dirty = false) :
    s.OnlyClockMoved s.endCycle := by
  rw [State.endCycle_running hrun]
  refine ⟨?_, ?_, by rw [← hclean]⟩ <;> dsimp only <;> split
  · exact countDown_toNat_le _
  · exact le_rfl
  · exact countDown_toNat_le _
  · exact le_rfl

/-- A jump to its own address moves the clock alone. -/
theorem step_parked {s : State} (hrun : s.halt = none) (hloaded : s.loaded = true) (hclean : s.dirty = false)
    (hd : decodeWord s.fetchWord = some (.jump s.pc)) : ∃ u, step s = .next u ∧ s.OnlyClockMoved u := by
  refine ⟨_, step_decoded hrun hloaded hd rfl, ?_⟩
  have hbegin : s.OnlyClockMoved (s.beginCycle.advancePc.setPc s.pc) := ⟨le_rfl, le_rfl, rfl⟩
  exact hbegin.trans (State.onlyClockMoved_endCycle hrun hclean)

/-- Settles O15, by induction on the number of cycles: the state a cycle leaves is parked in the same jump. -/
theorem aParkedCoreRunsForEver : Obligations.AParkedCoreRunsForEver := by
  unfold Obligations.AParkedCoreRunsForEver
  intro s k
  induction k generalizing s with
  | zero => exact fun _ _ _ _ => ⟨s, run_zero s, le_rfl, le_rfl, rfl⟩
  | succ k ih =>
    intro hrun hloaded hclean hd
    obtain ⟨u, hstep, hmoved⟩ := step_parked hrun hloaded hclean hd
    have hu := hmoved.frame
    obtain ⟨t, hrest, hdt, hst, ht⟩ := ih u (hu ▸ hrun) (hu ▸ hloaded) (hu ▸ hclean) (hu ▸ hd)
    have hmoved' := hmoved.trans ⟨hdt, hst, ht⟩
    exact ⟨t, (run_next hstep k).trans hrest, hmoved'.dt, hmoved'.st, hmoved'.frame⟩

end Sys2Proof.Machine
end

section
/-! The program loader (spec/40_fetch_decode_cycle.md R99, R100). -/

namespace Sys2Proof.Machine

/-- A list of bytes stored from `a` on, seen from any address: the byte at its distance from `a` (mod 4096), or, beyond
the list, what stood there (R51, R57). -/
theorem State.readByte_writeBytes (s : State) (a b : Addr) {bs : List Byte} (hlen : bs.length ≤ 4096) :
    (s.writeBytes a bs).readByte b = bs[(b - a).toNat]?.getD (s.readByte b) := by
  induction bs generalizing s a with
  | nil => rfl
  | cons v bs ih =>
    rw [List.length_cons] at hlen
    rw [State.writeBytes, ih _ _ (by omega)]
    by_cases hab : a = b
    · subst hab
      have hfar : bs.length ≤ (a - (a + 1)).toNat := by
        have : (a - (a + 1)).toNat = 4095 := by bv_omega
        omega
      rw [List.getElem?_eq_none hfar, BitVec.sub_self]
      exact s.readByte_writeByte_same a v
    · have hnext : (b - a).toNat = (b - (a + 1)).toNat + 1 := by bv_omega
      rw [s.readByte_writeByte_other a b v hab, hnext, List.getElem?_cons_succ]

theorem load_loaded {s : State} (h : s.loaded = true) (rom : List Byte) : s.load rom = .refused .loadAfterStart := by
  simp [State.load, h]

theorem load_empty {s : State} (h : s.loaded = false) : s.load [] = .fault .loaderFailure := by
  simp [State.load, h]

theorem load_tooLarge {s : State} {rom : List Byte} (h : s.loaded = false) (hne : rom ≠ [])
    (hlen : romCapacity s.cfg < rom.length) : s.load rom = .refused .romTooLarge := by
  simp [State.load, h, hne, hlen]

theorem load_fits {s : State} {rom : List Byte} (h : s.loaded = false) (hne : rom ≠ [])
    (hlen : rom.length ≤ romCapacity s.cfg) : s.load rom = .next { s.writeBytes 0x200 rom with loaded := true } := by
  simp [State.load, h, hne, Nat.not_lt.2 hlen]

/-- The load keeps the invariant: it keeps memory canonical, and the core that waited had no fault record. -/
theorem inv_load {s : State} (hinv : s.Inv) (hwait : s.loaded = false) (rom : List Byte) :
    State.Inv { s.writeBytes 0x200 rom with loaded := true } := by
  have hhalt : s.halt = none := by rw [hinv.waitsInReset hwait]; rfl
  have hmem := State.writeBytes_wf hinv.memWf 0x200 rom
  rw [State.writeBytes_eq]
  exact
    { cfgValid := hinv.cfgValid
      memWf := hmem
      cycInBatch := hinv.cycInBatch
      notDirty := hinv.notDirty
      haltExplained := fun r hr => by cases hhalt.symm.trans hr
      waitsInReset := fun h => by cases h }

/-- Settles O21: the four answers of the load; after the one that succeeds the ROM is read back by the distance from
0x200. -/
theorem theLoaderDepositsTheRomAt0x200 : Obligations.TheLoaderDepositsTheRomAt0x200 := by
  unfold Obligations.TheLoaderDepositsTheRomAt0x200
  intro s rom hvalid
  obtain ⟨-, hlow, hstack, hhigh, -⟩ := hvalid
  refine ⟨fun hwait => ⟨fun hne hfit => ?_, ?_, fun hbig => ?_⟩, fun hloaded => load_loaded hloaded rom⟩
  · have hcapacity : rom.length ≤ romCapacity s.cfg := by unfold romCapacity; omega
    have hread := fun b => s.readByte_writeBytes 0x200 b (bs := rom) (by omega)
    refine ⟨_, load_fits hwait hne hcapacity, by rw [s.writeBytes_eq], fun k hk => ?_, fun a ha => ?_,
      fun hinv => inv_load hinv hwait rom⟩
    · have hdist : (BitVec.ofNat 12 (0x200 + k) - (0x200 : Addr)).toNat = k := by
        bv_omega
      refine (hread _).trans ?_
      rw [hdist, List.getElem?_eq_getElem hk, Option.getD_some]
    · have hfar : rom.length ≤ (a - (0x200 : Addr)).toNat := by
        bv_omega
      refine (hread _).trans ?_
      rw [List.getElem?_eq_none hfar, Option.getD_none]
  · rintro rfl
    exact ⟨load_empty hwait, rfl⟩
  · have hne : rom ≠ [] := by rintro rfl; simp at hbig; omega
    exact load_tooLarge hwait hne (by unfold romCapacity; omega)

end Sys2Proof.Machine
end

section
/-! SUPPORT. The words of the instructions as the numbers the spec writes (spec/30_encoding.md R73, R75), and what a skip
does to the state (spec/41_control.md R121). -/

namespace Sys2Proof.Machine

open Sys2Proof.Stmt

/-- The number of an instruction's word spells the instruction. -/
theorem spells_of_toNat_encode {i : Instr} {w : Nat} (hi : i.WellFormed) (hw : (encode i).toNat = w) : Spells w i := by
  rw [Spells, ← hw, BitVec.ofNat_toNat, BitVec.setWidth_eq]
  exact decodeWord_encode hi

/-- The encoder's word of a call is the number R75 writes. -/
theorem encode_call (nnn : Addr) : encode (.call nnn) = BitVec.ofNat 16 (0x2000 + nnn.toNat) := by
  apply BitVec.eq_of_toNat_eq
  rw [encode, toNat_formatA, BitVec.toNat_ofNat, Nat.mod_eq_of_lt (by omega)]
  rfl

/-- A skip writes pc alone, by its condition as a proposition. -/
theorem State.skipIf_eq (s : State) {p : Bool} {q : Prop} [Decidable q] (h : p = true ↔ q) :
    s.skipIf p = { s with pc := if q then s.pc + 2 else s.pc } := by
  simp only [State.skipIf, State.setPc, h]

end Sys2Proof.Machine
end

section
/-! The control instructions (spec/41_control.md). -/

namespace Sys2Proof.Machine

open Sys2Proof.Stmt

/-- What a step on a call with a free entry does: it pushes the address of the call and goes to its target (R113). -/
theorem step_call_free {s t : State} {nnn : Addr} {k : Fin 16} (hstep : step s = .next t)
    (hd : decodeWord s.fetchWord = some (.call nnn)) (hk : s.sp.val = k.val) :
    t.stack = s.stack.set k s.pc ∧ t.sp = k.succ ∧ t.pc = nnn := by
  obtain ⟨v, hexec, rfl⟩ := step_exec_of_decodeWord hstep hd
  rw [exec_call_free (s := s.beginCycle.advancePc) hk, State.ia_advancePc] at hexec
  cases hexec
  rw [State.endCycle_stack, State.endCycle_sp, State.endCycle_pc]
  exact ⟨rfl, rfl, rfl⟩

/-- What a step on a return with an entry in use does: it pops the entry and goes to it plus 2, without a fault (R111). -/
theorem step_ret_used {s t : State} {k : Fin 16} (hstep : step s = .next t)
    (hd : decodeWord s.fetchWord = some .ret) (hk : s.sp.val = k.val + 1) :
    t.pc = s.stack[k] + 2 ∧ t.sp = k.castSucc ∧ t.halt = s.halt := by
  obtain ⟨v, hexec, rfl⟩ := step_exec_of_decodeWord hstep hd
  rw [exec_ret_used (s := s.beginCycle.advancePc) hk] at hexec
  cases hexec
  rw [State.endCycle_pc, State.endCycle_sp, State.endCycle_halt]
  exact ⟨rfl, rfl, rfl⟩

/-- Settles O53: the entry the return pops is the one the call pushed, its own address. -/
theorem returnAfterCallResumesBehindTheCall : Obligations.ReturnAfterCallResumesBehindTheCall := by
  unfold Obligations.ReturnAfterCallResumesBehindTheCall
  intro s t t' u nnn hfree _ hcall hstep hstack hsp hrun' hret hstep'
  obtain ⟨k, hk⟩ : ∃ k : Fin 16, s.sp.val = k.val := ⟨⟨s.sp.val, hfree⟩, rfl⟩
  obtain ⟨hpushed, hdepth, htarget⟩ := step_call_free hstep hcall hk
  have hused : t'.sp.val = k.val + 1 := by rw [hsp, hdepth]; rfl
  obtain ⟨hpc, hpopped, hhalt⟩ := step_ret_used hstep' hret hused
  have hentry : t'.stack[k] = s.pc := by rw [hstack, hpushed]; exact Vector.getElem_set_self _
  exact ⟨htarget, by rw [hpc, hentry], hpopped.trans (Fin.ext hk.symm), hhalt.trans hrun'⟩

/-- Settles O22: the display written is the blank one, whose every cell reads off. -/
theorem clearScreenBlanksTheDisplay : Obligations.ClearScreenBlanksTheDisplay := by
  unfold Obligations.ClearScreenBlanksTheDisplay
  refine ⟨spells_of_toNat_encode rfl rfl, fun s => ⟨_, rfl, fun y x => ?_, rfl⟩⟩
  simp [blankDisplay]

/-- Settles O23: with an entry in use the depth is one more than its index, and it is popped; otherwise the fault. -/
theorem returnPopsAndResumesAfterTheCall : Obligations.ReturnPopsAndResumesAfterTheCall := by
  unfold Obligations.ReturnPopsAndResumesAfterTheCall
  refine ⟨spells_of_toNat_encode rfl rfl, fun s => ⟨fun k hk => ?_, exec_ret_empty⟩⟩
  rw [exec_ret_used hk, ofNat_add_eq]
  rfl

/-- Settles O24: with a free entry the address of the call is pushed; otherwise the fault, whose record holds the word. -/
theorem callPushesItsOwnAddress : Obligations.CallPushesItsOwnAddress := by
  unfold Obligations.CallPushesItsOwnAddress
  intro s nnn
  refine ⟨spells_of_toNat_encode rfl (toNat_formatA 0x2 nnn), fun k hk => exec_call_free hk nnn, fun hfull => ?_⟩
  rw [exec_call_full hfull, encode_call]
  rfl

/-- Settles O25: both jumps write pc alone; the sum of jump-indexed wraps in 12 bits. -/
theorem jumpsGoToTheirTarget : Obligations.JumpsGoToTheirTarget := by
  unfold Obligations.JumpsGoToTheirTarget
  intro s nnn
  refine ⟨spells_of_toNat_encode rfl (toNat_formatA 0x1 nnn),
    spells_of_toNat_encode rfl (toNat_formatA 0xB nnn), rfl, ?_⟩
  rw [← add_setWidth_eq]
  rfl

/-- Settles O26: each of the four is a skip on its own condition, which does not name the ignored nibble. -/
theorem comparingSkipsAdvancePcByTwoMore : Obligations.ComparingSkipsAdvancePcByTwoMore := by
  unfold Obligations.ComparingSkipsAdvancePcByTwoMore
  intro s x y kk g
  exact ⟨spells_of_toNat_encode rfl (toNat_formatXK 0x3 x kk), spells_of_toNat_encode rfl (toNat_formatXK 0x4 x kk),
    spells_of_toNat_encode rfl (toNat_formatXYN 0x5 x (regBits y) g),
    spells_of_toNat_encode rfl (toNat_formatXYN 0x9 x (regBits y) g),
    congrArg Host.Outcome.next (s.skipIf_eq beq_iff_eq), congrArg Host.Outcome.next (s.skipIf_eq bne_iff_ne),
    congrArg Host.Outcome.next (s.skipIf_eq beq_iff_eq), congrArg Host.Outcome.next (s.skipIf_eq bne_iff_ne)⟩

/-- Settles O27: both are a skip on the latched key that V[x] selects. -/
theorem keySkipsTestTheLatchedKeyOfTheLowFourBits : Obligations.KeySkipsTestTheLatchedKeyOfTheLowFourBits := by
  unfold Obligations.KeySkipsTestTheLatchedKeyOfTheLowFourBits
  intro s x
  refine ⟨spells_of_toNat_encode rfl ?_, spells_of_toNat_encode rfl ?_, fun k hk => ?_⟩
  · exact (toNat_formatXK 0xE x 0x9E).trans (Nat.add_right_comm _ _ _)
  · exact (toNat_formatXK 0xE x 0xA1).trans (Nat.add_right_comm _ _ _)
  · have hkey : s.pressed (s.keyOf x) = s.keys[k] := by rw [s.keyOf_eq x k hk, State.pressed]
    exact ⟨congrArg Host.Outcome.next (s.skipIf_eq (by rw [hkey])),
      congrArg Host.Outcome.next (s.skipIf_eq (by rw [hkey, Bool.not_eq_true']))⟩

end Sys2Proof.Machine
end

section
/-! The ALU instructions (spec/42_alu.md). -/

namespace Sys2Proof.Machine

/-- A word of group 8 as the statements write it: the last nibble, which tells the instructions of the group apart, is
part of the constant (R75). -/
theorem toNat_formatXYN_group8 (x : Reg) (y n : BitVec 4) :
    (formatXYN 0x8 x y n).toNat = 0x8000 + n.toNat + 0x100 * x.val + 0x10 * y.toNat := by
  rw [toNat_formatXYN, Nat.add_right_comm _ n.toNat, Nat.add_right_comm _ n.toNat]
  rfl

/-- An instruction that writes the flag and a result writes V[15], then V[x], and nothing else (R141). -/
theorem State.writeFlagged_eq (s : State) (x : Reg) {f f' r r' : Byte} (hf : f = f') (hr : r = r') :
    s.writeFlagged x f r = { s with v := (s.v.set 15 f').set x r' } := by
  rw [hf, hr]
  rfl

/-- A byte sum as the number R136 writes: mod 256. -/
theorem add_eq_mod (a b : Byte) : a + b = BitVec.ofNat 8 ((a.toNat + b.toNat) % 256) := by
  apply BitVec.eq_of_toNat_eq
  rw [BitVec.toNat_add, BitVec.toNat_ofNat, Nat.mod_mod]

/-- A byte shifted right by one is half its number (R138). -/
theorem ushiftRight_one_eq_half (a : Byte) : a >>> 1 = BitVec.ofNat 8 (a.toNat / 2) := by
  apply BitVec.eq_of_toNat_eq
  rw [BitVec.toNat_ushiftRight, Nat.shiftRight_eq_div_pow, BitVec.toNat_ofNat]
  omega

/-- A byte shifted left by one is twice its number, mod 256 (R140). -/
theorem shiftLeft_one_eq_double_mod (a : Byte) : a <<< 1 = BitVec.ofNat 8 (2 * a.toNat % 256) := by
  apply BitVec.eq_of_toNat_eq
  rw [BitVec.toNat_shiftLeft, Nat.shiftLeft_eq, BitVec.toNat_ofNat]
  omega

/-- Settles O29: each of the three writes one register; a byte sum is the sum of the numbers, reduced. -/
theorem loadsAndAddImmediateWriteVx : Obligations.LoadsAndAddImmediateWriteVx := by
  unfold Obligations.LoadsAndAddImmediateWriteVx
  intro s x y kk
  exact ⟨spells_of_toNat_encode rfl (toNat_formatXK 0x6 x kk), spells_of_toNat_encode rfl (toNat_formatXK 0x7 x kk),
    spells_of_toNat_encode rfl (toNat_formatXYN_group8 x (regBits y) 0x0), rfl,
    congrArg Host.Outcome.next (congrArg (s.setReg x) (BitVec.add_def s.v[x] kk)), rfl⟩

/-- Settles O30: each of the three writes the bitwise operation on the two bytes to one register. -/
theorem logicOperationsWorkBitByBitWithoutFlag : Obligations.LogicOperationsWorkBitByBitWithoutFlag := by
  unfold Obligations.LogicOperationsWorkBitByBitWithoutFlag
  intro s x y
  exact ⟨spells_of_toNat_encode rfl (toNat_formatXYN_group8 x (regBits y) 0x1),
    spells_of_toNat_encode rfl (toNat_formatXYN_group8 x (regBits y) 0x2),
    spells_of_toNat_encode rfl (toNat_formatXYN_group8 x (regBits y) 0x3),
    ⟨_, rfl, fun _ _ => BitVec.getLsbD_or⟩, ⟨_, rfl, fun _ _ => BitVec.getLsbD_and⟩,
    ⟨_, rfl, fun _ _ => BitVec.getLsbD_xor⟩⟩

/-- Settles O31: the flag and the result are computed before either is written. -/
theorem addRegWritesCarryThenSum : Obligations.AddRegWritesCarryThenSum := by
  unfold Obligations.AddRegWritesCarryThenSum
  intro s x y
  exact ⟨spells_of_toNat_encode rfl (toNat_formatXYN_group8 x (regBits y) 0x4),
    congrArg Host.Outcome.next (s.writeFlagged_eq x (carryFlag_eq s.v[x] s.v[y]) (add_eq_mod s.v[x] s.v[y]))⟩

/-- Settles O32: the two subtractions are one, with the operands exchanged. -/
theorem subtractionsWriteNotBorrowThenDifference : Obligations.SubtractionsWriteNotBorrowThenDifference := by
  unfold Obligations.SubtractionsWriteNotBorrowThenDifference
  intro s x y
  exact ⟨spells_of_toNat_encode rfl (toNat_formatXYN_group8 x (regBits y) 0x5),
    spells_of_toNat_encode rfl (toNat_formatXYN_group8 x (regBits y) 0x7),
    congrArg Host.Outcome.next (s.writeFlagged_eq x (notBorrowFlag_eq s.v[x] s.v[y]) (sub_eq_mod s.v[x] s.v[y])),
    congrArg Host.Outcome.next (s.writeFlagged_eq x (notBorrowFlag_eq s.v[y] s.v[x]) (sub_eq_mod s.v[y] s.v[x]))⟩

/-- Settles O33: the bit shifted out and the result as numbers; neither names the ignored nibble. -/
theorem shiftsWriteTheBitShiftedOutThenTheResult : Obligations.ShiftsWriteTheBitShiftedOutThenTheResult := by
  unfold Obligations.ShiftsWriteTheBitShiftedOutThenTheResult
  intro s x g
  exact ⟨spells_of_toNat_encode rfl (toNat_formatXYN_group8 x g 0x6),
    spells_of_toNat_encode rfl (toNat_formatXYN_group8 x g 0xE),
    congrArg Host.Outcome.next (s.writeFlagged_eq x (shiftedOutLow_eq s.v[x]) (ushiftRight_one_eq_half s.v[x])),
    congrArg Host.Outcome.next (s.writeFlagged_eq x (shiftedOutHigh_eq s.v[x]) (shiftLeft_one_eq_double_mod s.v[x]))⟩

end Sys2Proof.Machine
end

section
/-! The index instructions (spec/43_index.md). -/

namespace Sys2Proof.Machine

/-- A word of group F as the statements write it: the low byte, which tells the instructions of the group apart, is
part of the constant (R75). -/
theorem toNat_formatXK_groupF (x : Reg) (kk : Byte) :
    (formatXK 0xF x kk).toNat = 0xF000 + kk.toNat + 0x100 * x.val :=
  (toNat_formatXK 0xF x kk).trans (Nat.add_right_comm _ _ _)

/-- A font pointer is exact: five times a byte fits the 16 bits of I (R152). -/
theorem toNat_glyphAddr (b : Byte) : (glyphAddr b).toNat = 5 * b.toNat := by
  rw [glyphAddr, BitVec.toNat_ofNat]
  omega

/-- The sum of I and a byte as the number R151 writes: mod 65536. -/
theorem add_setWidth_eq_mod (i : Word) (b : Byte) :
    i + b.setWidth 16 = BitVec.ofNat 16 ((i.toNat + b.toNat) % 65536) := by
  have hb : (b.setWidth 16).toNat = b.toNat := BitVec.toNat_setWidth_of_le (by decide)
  apply BitVec.eq_of_toNat_eq
  rw [BitVec.toNat_add, hb, BitVec.toNat_ofNat, Nat.mod_mod]

/-- Settles O35: both write I alone; neither the 12 bits of nnn nor five times a byte is reduced in 16 bits. -/
theorem loadIndexAndFontPointerSetTheIndex : Obligations.LoadIndexAndFontPointerSetTheIndex := by
  unfold Obligations.LoadIndexAndFontPointerSetTheIndex
  intro s x nnn
  exact ⟨spells_of_toNat_encode rfl (toNat_formatA 0xA nnn), spells_of_toNat_encode rfl (toNat_formatXK_groupF x 0x29),
    ⟨_, rfl, BitVec.toNat_setWidth_of_le (by decide), rfl⟩, ⟨_, rfl, toNat_glyphAddr s.v[x], rfl⟩⟩

/-- Settles O36: the flag and the sum are computed from the old I and V[x] before either is written. -/
theorem addIndexKeepsSixteenBitsAndFlagsAboveTwelve : Obligations.AddIndexKeepsSixteenBitsAndFlagsAboveTwelve := by
  unfold Obligations.AddIndexKeepsSixteenBitsAndFlagsAboveTwelve
  intro s x
  refine ⟨spells_of_toNat_encode rfl (toNat_formatXK_groupF x 0x1E), ?_⟩
  rw [← indexFlag_eq, ← add_setWidth_eq_mod]
  rfl

end Sys2Proof.Machine
end

section
/-! The memory instructions (spec/44_memory_ops.md). -/

namespace Sys2Proof.Machine

/-- A store of the block changes memory and nothing else (R161, R163). -/
theorem exec_storeRegs_eq {x : Reg} {s t : State} (h : exec (.storeRegs x) s = .next t) :
    t = { s with mem := t.mem } := by
  cases h
  exact storeRegs_eq s (x.val + 1)

/-- A load of the block changes the registers and nothing else (R162, R163). -/
theorem exec_loadRegs_eq {x : Reg} {s t : State} (h : exec (.loadRegs x) s = .next t) :
    t = { s with v := t.v } := by
  cases h
  exact loadRegs_eq s (x.val + 1)

/-- The registers up to V[x] are the bytes from I on (R162). -/
theorem exec_loadRegs_loaded {x k : Reg} {s t : State} (h : exec (.loadRegs x) s = .next t) (hk : k ≤ x) :
    t.v[k] = s.readByte (effAddr s.idx k.val) := by
  cases h
  rw [loadRegs_reg s _ (by omega), if_pos (Nat.lt_succ_of_le hk)]

/-- The registers above V[x] are as before (R162). -/
theorem exec_loadRegs_above {x k : Reg} {s t : State} (h : exec (.loadRegs x) s = .next t) (hk : x < k) :
    t.v[k] = s.v[k] := by
  cases h
  rw [loadRegs_reg s _ (by omega), if_neg (Nat.not_lt.2 hk)]

/-- Settles O38: the three writes seen from I, I + 1, I + 2 and from any other address; the ones digit is the table's
entry where there is one. -/
theorem storeBcdWritesThreeDigits : Obligations.StoreBcdWritesThreeDigits := by
  unfold Obligations.StoreBcdWritesThreeDigits
  intro s x
  have after := exec_storeBcd_afterStoreBcd (x := x) (s := s) rfl
  obtain ⟨hundreds, -⟩ := after (effAddr s.idx 0)
  obtain ⟨-, tens, -⟩ := after (effAddr s.idx 1)
  obtain ⟨-, -, ones, -⟩ := after (effAddr s.idx 2)
  refine ⟨spells_of_toNat_encode rfl (toNat_formatXK_groupF x 0x33), _, rfl, rfl, hundreds rfl, tens rfl,
    fun b hb => ?_, fun hnone => ?_, fun a ha => ?_⟩
  · rw [ones rfl, hb, Option.getD_some]
  · rw [ones rfl, hnone, Option.getD_none]
  · obtain ⟨-, -, -, miss⟩ := after a
    exact miss ha

/-- Settles O39: the byte at each address after the loop of R161, an address of the block or not. -/
theorem storeRegsWritesTheBlock : Obligations.StoreRegsWritesTheBlock := by
  unfold Obligations.StoreRegsWritesTheBlock
  intro s x
  have after := exec_storeRegs_afterStoreRegs (x := x) (s := s) rfl
  exact ⟨spells_of_toNat_encode rfl (toNat_formatXK_groupF x 0x55), _, rfl, exec_storeRegs_eq rfl,
    fun k hk => (after _).1 k hk rfl, fun a ha => (after a).2 ha⟩

/-- Settles O40: each register after the loop of R162, loaded or not. -/
theorem loadRegsReadsTheBlock : Obligations.LoadRegsReadsTheBlock := by
  unfold Obligations.LoadRegsReadsTheBlock
  intro s x
  exact ⟨spells_of_toNat_encode rfl (toNat_formatXK_groupF x 0x65), _, rfl, exec_loadRegs_eq rfl,
    fun _ => exec_loadRegs_loaded rfl, fun _ => exec_loadRegs_above rfl⟩

/-- Settles O41: the store leaves I, and memory does not depend on the registers, so the load reads the stored bytes
where they were written. -/
theorem storeRegsThenLoadRegsRestoresTheRegisters : Obligations.StoreRegsThenLoadRegsRestoresTheRegisters := by
  unfold Obligations.StoreRegsThenLoadRegsRestoresTheRegisters
  intro s t u x w hstore hload
  have hidx : t.idx = s.idx := by rw [exec_storeRegs_eq hstore]
  refine ⟨fun k hk => ?_, fun _ => exec_loadRegs_above hload, ?_⟩
  · obtain ⟨hit, -⟩ := exec_storeRegs_afterStoreRegs hstore (effAddr s.idx k.val)
    calc u.v[k] = State.readByte { t with v := w } (effAddr t.idx k.val) := exec_loadRegs_loaded hload hk
      _ = t.readByte (effAddr t.idx k.val) := State.readByte_congr rfl rfl _
      _ = t.readByte (effAddr s.idx k.val) := by rw [hidx]
      _ = s.v[k] := hit k hk rfl
  · rw [exec_loadRegs_eq hload]
    exact hidx

end Sys2Proof.Machine
end

section
/-! The timer and key instructions (spec/45_timer_key.md). -/

namespace Sys2Proof.Machine

open Sys2Proof.Stmt

/-- A key that is the only one pressed is all the list holds. -/
theorem pressedKeys_eq_singleton {keys : KeyVector} {k : Key} (hk : keys[k] = true)
    (honly : ∀ j : Key, keys[j] = true → j = k) : pressedKeys keys = [k] := by
  rw [← List.perm_singleton, List.perm_ext_iff_of_nodup (pressedKeys_nodup keys) (List.nodup_singleton k)]
  intro j
  rw [mem_pressedKeys, List.mem_singleton]
  exact ⟨honly j, fun hj => hj ▸ hk⟩

/-- A choice of WAITKEY_PICK, made or not, takes neither a key vector nor a random byte (log 8). -/
theorem Inputs.afterPick_keeps_others (p : Inputs) (c : Prop) [Decidable c] :
    (if c then p.afterPick else p).keyVectors = p.keyVectors ∧
    (if c then p.afterPick else p).randomBytes = p.randomBytes := by
  split <;> exact ⟨rfl, rfl⟩

/-- What wait-key delivers with a key pressed; a choice is used up where there are several (R171, log 8). -/
theorem exec_waitKey_pressed {s : State} {k : Key} (hk : s.keys[k] = true) (x : Reg) :
    exec (.waitKey x) s = .next { s with
      v := s.v.set x (BitVec.ofNat 8 (pickKey (pressedKeys s.keys) s.inputs.pick).val)
      inputs := if 2 ≤ (pressedKeys s.keys).length then s.inputs.afterPick else s.inputs } := by
  have hne : ¬ (pressedKeys s.keys).isEmpty = true := fun e => (pressedKeys_isEmpty s.keys).1 e ⟨k, hk⟩
  simp only [exec, execWaitKey, if_neg hne]

/-- Settles O45: without a key the retry; with one, the key picked is in the list of the pressed ones, and a list of one
key leaves nothing to pick. -/
theorem waitKeyRetriesOrDeliversAPressedKey : Obligations.WaitKeyRetriesOrDeliversAPressedKey := by
  unfold Obligations.WaitKeyRetriesOrDeliversAPressedKey
  intro s x
  refine ⟨spells_of_toNat_encode rfl (toNat_formatXK_groupF x 0x0A), fun hnone => ?_,
    fun k hk => ⟨?_, fun honly => ?_⟩⟩
  · exact exec_waitKey_retry (fun ⟨k, hk⟩ => Bool.false_ne_true ((hnone k).symm.trans hk)) x
  · have hmem := pickKey_mem (pressedKeys s.keys) s.inputs.pick (List.ne_nil_of_mem ((mem_pressedKeys s.keys k).2 hk))
    exact ⟨_, _, (mem_pressedKeys s.keys _).1 hmem, exec_waitKey_pressed hk x, rfl, s.inputs.afterPick_keeps_others _⟩
  · rw [exec_waitKey_pressed hk, pressedKeys_eq_singleton hk honly]
    rfl

/-- Settles O44: each of the three writes one byte, DT to a register or a register to a timer. -/
theorem timerMovesCopyOneByte : Obligations.TimerMovesCopyOneByte := by
  unfold Obligations.TimerMovesCopyOneByte
  intro s x
  exact ⟨spells_of_toNat_encode rfl (toNat_formatXK_groupF x 0x07),
    spells_of_toNat_encode rfl (toNat_formatXK_groupF x 0x15),
    spells_of_toNat_encode rfl (toNat_formatXK_groupF x 0x18), rfl, rfl, rfl⟩

end Sys2Proof.Machine
end

section
/-! The core that waits for a key (spec/45_timer_key.md R171, spec/40_fetch_decode_cycle.md R94, R95). -/

namespace Sys2Proof.Machine

/-- The next cycle of `s` is a retry of the wait-key at pc: the core runs, no hand-off is due, and no key is pressed in
the latch the cycle reads (R171). -/
structure State.Retries (s : State) (x : Reg) : Prop where
  running : s.halt = none
  loaded : s.loaded = true
  clean : s.dirty = false
  decodes : decodeWord s.fetchWord = some (.waitKey x)
  noKey : ∀ j : Key, s.beginCycle.keys[j] = false

/-- The end of a cycle with nothing to hand off that does not end its batch moves `cyc` alone. -/
theorem State.endCycle_clean_count {s : State} (hrun : s.halt = none) (hclean : s.dirty = false)
    (hN : s.cyc + 1 ≠ s.cfg.cyclesPerTick) : s.endCycle = { s with cyc := s.cyc + 1 } := by
  simp [State.endCycle_running hrun, hN, hclean]

/-- The end of a batch with nothing to hand off moves the timers, the cue and `cyc` alone (R211, R212). -/
theorem State.endCycle_clean_tick {s : State} (hrun : s.halt = none) (hclean : s.dirty = false)
    (hN : s.cyc + 1 = s.cfg.cyclesPerTick) :
    s.endCycle = { s with
      dt := countDown s.dt, st := countDown s.st, cyc := 0
      outputs := ⟨s.outputs.render, s.outputs.cue || decide (s.st = 1)⟩ } := by
  simp [State.endCycle_running hrun, hN, hclean]

/-- The start of a later cycle of the batch changes nothing that the start of the one before has not: there is no
refresh, and the ports are silent already (R96). -/
theorem State.beginCycle_beginCycle_succ (s : State) (c : Nat) :
    State.beginCycle { s.beginCycle with cyc := c + 1 } = { s.beginCycle with cyc := c + 1 } := by
  simp [State.beginCycle]

/-- A retry undoes the fetch's advance, so the cycle only begins and ends (R91, R171). -/
theorem State.Retries.step_eq {s : State} {x : Reg} (h : s.Retries x) : step s = .next s.beginCycle.endCycle := by
  have hnone : ¬ ∃ j : Key, s.beginCycle.advancePc.keys[j] = true :=
    fun ⟨j, hj⟩ => Bool.false_ne_true ((h.noKey j).symm.trans hj)
  have hexec : exec (.waitKey x) s.beginCycle.advancePc = .next s.beginCycle := by
    rw [exec_waitKey_retry hnone, State.ia_advancePc]
    rfl
  exact step_decoded h.running h.loaded h.decodes hexec

/-- Inside the batch a retry is followed by a retry: neither the word at pc nor the latch has moved (R171). -/
theorem State.Retries.counted {s : State} {x : Reg} (h : s.Retries x) :
    State.Retries { s.beginCycle with cyc := s.cyc + 1 } x where
  running := h.running
  loaded := h.loaded
  clean := h.clean
  decodes := h.decodes
  noKey := by
    rw [State.beginCycle_beginCycle_succ]
    exact h.noKey

/-- The retries of a batch taken together: `k + 1` of them are the start of the first cycle, `k` positions further in the
batch, and the end of the last cycle. -/
theorem State.Retries.run_eq {s : State} {x : Reg} {k : Nat} (h : s.Retries x)
    (hN : s.cyc + (k + 1) ≤ s.cfg.cyclesPerTick) :
    Sys2Proof.core.run (k + 1) s = .next (State.endCycle { s.beginCycle with cyc := s.cyc + k }) := by
  induction k generalizing s with
  | zero => exact run_next h.step_eq 0
  | succ k ih =>
    have hinside : s.cyc + 1 ≠ s.cfg.cyclesPerTick := by omega
    have hrest : s.cyc + 1 + (k + 1) ≤ s.cfg.cyclesPerTick := by omega
    have hsum : s.cyc + 1 + k = s.cyc + (k + 1) := by omega
    have hcount : s.beginCycle.endCycle = { s.beginCycle with cyc := s.cyc + 1 } :=
      State.endCycle_clean_count h.running h.clean hinside
    rw [run_next (h.step_eq.trans (congrArg _ hcount)), ih h.counted hrest, State.beginCycle_beginCycle_succ, hsum]

/-- Settles O14: the run is the end of one cycle, which counts or ticks. -/
theorem aWaitingCoreRetriesForTheRestOfTheBatch : Obligations.AWaitingCoreRetriesForTheRestOfTheBatch := by
  unfold Obligations.AWaitingCoreRetriesForTheRestOfTheBatch
  intro s x k hrun hloaded hclean hd hnoKey
  have hretries : s.Retries x := ⟨hrun, hloaded, hclean, hd, hnoKey⟩
  refine ⟨fun hinside => ?_, fun hlast => ?_⟩
  · rw [hretries.run_eq hinside.le, State.endCycle_clean_count]
    · rfl
    exacts [hrun, hclean, hinside.ne]
  · rw [hretries.run_eq hlast.le, State.endCycle_clean_tick]
    · exact ⟨_, rfl, rfl, rfl, countDown_toNat s.dt, countDown_toNat s.st, rfl, decide_eq_true_iff, rfl⟩
    exacts [hrun, hclean, hlast]

end Sys2Proof.Machine
end

section
/-! The random group (spec/46_random.md). -/

namespace Sys2Proof.Machine

open Sys2Proof.Stmt

/-- A listed byte is the one a draw presents (R180, log 7). -/
theorem Inputs.randomByte_of_cons {p : Inputs} {r : Byte} {rest : List Byte} (h : p.randomBytes = r :: rest) :
    p.randomByte = r := by
  rw [Inputs.randomByte, h]
  rfl

/-- A draw that finds a listed byte takes that byte and nothing else; no free value is used (R180, log 7). -/
theorem Inputs.afterByte_of_cons {p : Inputs} {r : Byte} {rest : List Byte} (h : p.randomBytes = r :: rest) :
    p.afterByte = { p with randomBytes := rest } := by
  rw [Inputs.afterByte, h]
  rfl

/-- random-and writes V[x] and consumes one draw, whatever kk is (R180). -/
theorem exec_randomAnd (x : Reg) (kk : Byte) (s : State) :
    exec (.randomAnd x kk) s = .next { s with
      v := s.v.set x (s.inputs.randomByte &&& kk), inputs := s.inputs.afterByte } :=
  rfl

/-- Settles O46: a listed byte is drawn and taken off the list; with none listed the draw still takes some byte, and
neither a key vector nor a choice of key. -/
theorem randomAndMasksTheDrawnByte : Obligations.RandomAndMasksTheDrawnByte := by
  unfold Obligations.RandomAndMasksTheDrawnByte
  intro s x kk
  refine ⟨spells_of_toNat_encode rfl (toNat_formatXK 0xC x kk), fun r rest hlisted => ?_, ?_⟩
  · rw [exec_randomAnd, Inputs.randomByte_of_cons hlisted, Inputs.afterByte_of_cons hlisted]
  · exact ⟨s.inputs.randomByte, _, exec_randomAnd x kk s, rfl, rfl, rfl⟩

end Sys2Proof.Machine
end

section
/-! SUPPORT. Which cells a sprite falls on, and what a draw-sprite that draws does to every cell and to V[15], as facts
about the state (spec/47_draw.md R185 to R188). -/

namespace Sys2Proof.Machine

open Sys2Proof.Stmt

/-! ## The cell a pixel addresses, under each policy (R186) -/

theorem pixelCell_iff_of_clip_or_fault {e : EdgePolicy} (he : e = .clip ∨ e = .fault) (px py : Nat) (qx : Fin 64)
    (qy : Fin 32) : pixelCell e px py = some (qx, qy) ↔ px = qx.val ∧ py = qy.val := by
  have hx := qx.isLt
  have hy := qy.isLt
  rcases he with rfl | rfl <;>
  · simp only [pixelCell, Option.dite_none_right_eq_some, Option.some.injEq, Prod.mk.injEq, Fin.ext_iff, exists_prop]
    omega

theorem pixelCell_wrap_iff (px py : Nat) (qx : Fin 64) (qy : Fin 32) :
    pixelCell .wrap px py = some (qx, qy) ↔ px % 64 = qx.val ∧ py % 32 = qy.val := by
  simp only [pixelCell, Option.some.injEq, Prod.mk.injEq, Fin.ext_iff]

theorem pixelCell_replicate_iff (px py : Nat) (qx : Fin 64) (qy : Fin 32) :
    pixelCell .replicate px py = some (qx, qy) ↔ 64 * py + px = 64 * qy.val + qx.val := by
  have hx := qx.isLt
  have hy := qy.isLt
  simp only [pixelCell, Option.dite_none_right_eq_some, Option.some.injEq, Prod.mk.injEq, Fin.ext_iff, exists_prop]
  omega

/-! ## The cells a sprite falls on -/

/-- A set bit of the sprite of a draw-sprite Vx, Vy, n in the state `s` falls on the cell (qx, qy). -/
def State.drawsCell (s : State) (x y : Reg) (n : Nat) (qx : Fin 64) (qy : Fin 32) : Bool :=
  spriteHits s.cfg.drawEdge s.spriteRow (s.reg x).toNat (s.reg y).toNat n qx qy

/-- The statements' reading of the cells a sprite falls on is the blitter's own. -/
theorem drawsOn_iff_drawsCell (s : State) (x y : Reg) {n : Nat} (hn : n < 16) (qx : Fin 64) (qy : Fin 32) :
    DrawsOn s s.v[x].toNat s.v[y].toNat n qx qy ↔ s.drawsCell x y n qx qy = true := by
  rw [State.drawsCell, spriteHits_iff _ _ _ _ (by omega)]
  refine exists_congr fun row => and_congr_right fun _ => exists_congr fun col => and_congr_right fun _ =>
    and_congr_right fun _ => ?_
  cases s.cfg.drawEdge with
  | clip => exact (pixelCell_iff_of_clip_or_fault (.inl rfl) _ _ _ _).symm
  | fault => exact (pixelCell_iff_of_clip_or_fault (.inr rfl) _ _ _ _).symm
  | wrap => exact (pixelCell_wrap_iff _ _ _ _).symm
  | replicate => exact (pixelCell_replicate_iff _ _ _ _).symm

theorem spriteHits_congr {rows rows' : Nat → Byte} {n : Nat} (h : ∀ k < n, rows k = rows' k) (e : EdgePolicy)
    (x0 y0 : Nat) (qx : Fin 64) (qy : Fin 32) : spriteHits e rows x0 y0 n qx qy = spriteHits e rows' x0 y0 n qx qy := by
  unfold spriteHits
  by_cases hrow : rowOf e x0 y0 qx qy < n
  · rw [h _ hrow]
  · rw [decide_eq_false fun hbit => hrow hbit.2, Bool.false_and, Bool.false_and]

/-! ## What drawing does -/

/-- The blitter XORs every cell with the bit that falls on it (R185). -/
theorem spriteBlit_disp (s : State) (x y : Reg) {n : Nat} (hn : n < 16) (qx : Fin 64) (qy : Fin 32) :
    (spriteBlit x y n s).disp[qy][qx] = (s.disp[qy][qx] != s.drawsCell x y n qx qy) :=
  Blit.cell_rows _ _ _ _ _ (by omega) qx qy

/-- The blitter reports a collision iff a bit falls on a cell that is on (R188). -/
theorem spriteBlit_hit (s : State) (x y : Reg) {n : Nat} (hn : n < 16) :
    (spriteBlit x y n s).hit = true ↔
      ∃ (qy : Fin 32) (qx : Fin 64), s.drawsCell x y n qx qy = true ∧ s.disp[qy][qx] = true := by
  rw [exists_comm]
  exact (Blit.hit_rows _ _ _ _ _ (by omega)).trans (or_iff_right Bool.false_ne_true)

theorem flagByte_eq_one_iff (p : Bool) : flagByte p = 1 ↔ p = true := by cases p <;> decide

/-- Every cell after a draw-sprite that draws (R185). -/
theorem exec_drawSprite_disp {s t : State} {x y : Reg} {n : Nat} (hn : n < 16)
    (hin : ¬ DrawsOutside s s.v[x].toNat s.v[y].toNat n) (h : exec (.drawSprite x y n) s = .next t) (qx : Fin 64)
    (qy : Fin 32) : t.disp[qy][qx] = (s.disp[qy][qx] != s.drawsCell x y n qx qy) := by
  rw [exec_drawSprite_drawn hin] at h
  cases h
  exact spriteBlit_disp s x y hn qx qy

/-- The flag after a draw-sprite that draws (R188). -/
theorem exec_drawSprite_flag {s t : State} {x y : Reg} {n : Nat} (hn : n < 16)
    (hin : ¬ DrawsOutside s s.v[x].toNat s.v[y].toNat n) (h : exec (.drawSprite x y n) s = .next t) :
    t.v[15] = 1 ↔ ∃ (qy : Fin 32) (qx : Fin 64), s.drawsCell x y n qx qy = true ∧ s.disp[qy][qx] = true := by
  rw [exec_drawSprite_drawn hin] at h
  cases h
  have hflag : (s.setReg flagReg (flagByte (spriteBlit x y n s).hit)).v[15] = flagByte (spriteBlit x y n s).hit :=
    s.reg_setReg_same flagReg _
  exact (hflag ▸ flagByte_eq_one_iff _).trans (spriteBlit_hit s x y hn)

/-! ## Two draws of the same sprite -/

/-- In the states `s` and `t` a draw-sprite Vx, Vy, n draws the same sprite at the same position under the same policy:
the operands and the sprite bytes are the same (R189). -/
structure State.SameSprite (s t : State) (x y : Reg) (n : Nat) : Prop where
  policy : t.cfg.drawEdge = s.cfg.drawEdge
  column : t.reg x = s.reg x
  row : t.reg y = s.reg y
  bytes : ∀ k < n, t.spriteRow k = s.spriteRow k

theorem State.SameSprite.drawsCell {s t : State} {x y : Reg} {n : Nat} (h : s.SameSprite t x y n) (qx : Fin 64)
    (qy : Fin 32) : t.drawsCell x y n qx qy = s.drawsCell x y n qx qy := by
  rw [State.drawsCell, spriteHits_congr h.bytes, h.policy, h.column, h.row, State.drawsCell]

theorem State.SameSprite.drawsOutside_iff {s t : State} {x y : Reg} {n : Nat} (h : s.SameSprite t x y n) :
    DrawsOutside t t.v[x].toNat t.v[y].toNat n ↔ DrawsOutside s s.v[x].toNat s.v[y].toNat n := by
  have hx : t.v[x] = s.v[x] := h.column
  have hy : t.v[y] = s.v[y] := h.row
  refine exists_congr fun row => and_congr_right fun hrow => ?_
  have hbyte : t.readByte (effAddr t.idx row) = s.readByte (effAddr s.idx row) := h.bytes row hrow
  rw [hbyte, hx, hy, h.policy]

end Sys2Proof.Machine
end

section
/-! Drawing (spec/47_draw.md). -/

namespace Sys2Proof.Machine

open Sys2Proof.Stmt

/-- Settles O48: the blitter XORs every cell with the bit that falls on it, and the draw writes its display and its
collision bit, and sets dirty. -/
theorem drawSpriteInvertsTheCellsItFallsOnAndReportsCollision :
    Obligations.DrawSpriteInvertsTheCellsItFallsOnAndReportsCollision := by
  unfold Obligations.DrawSpriteInvertsTheCellsItFallsOnAndReportsCollision
  intro s x y n hn
  refine ⟨?_, fun hin => ?_⟩
  · rw [Spells, ← encode_drawSprite x y hn]
    exact decodeWord_encode (decide_eq_true hn)
  · refine ⟨_, flagByte (spriteBlit x y n s).hit, exec_drawSprite_drawn hin, fun py px => ?_, flagByte_cases _, ?_, rfl⟩
    · rw [drawsOn_iff_drawsCell s x y hn]
      refine ⟨fun hbit => ?_, fun hbit => ?_⟩ <;> refine (spriteBlit_disp s x y hn px py).trans ?_
      · rw [hbit, Bool.bne_true]
      · rw [Bool.eq_false_of_not_eq_true hbit, Bool.bne_false]
    · simp only [drawsOn_iff_drawsCell s x y hn]
      exact (flagByte_eq_one_iff _).trans (spriteBlit_hit s x y hn)

/-- Settles O49: the same bits are XORed twice; and a bit of the second draw falls on a cell that is on exactly where
the first turned it on. -/
theorem drawingTwiceRestoresTheDisplay : Obligations.DrawingTwiceRestoresTheDisplay := by
  unfold Obligations.DrawingTwiceRestoresTheDisplay
  intro s t t' u x y n hn hin hfirst hdisp hidx hx hy hedge hbytes hsecond
  have hsame : s.SameSprite t' x y n :=
    ⟨hedge, hx, hy, fun k hk => by rw [State.spriteRow, hidx]; exact hbytes k hk⟩
  have hin' := mt hsame.drawsOutside_iff.1 hin
  have hdrawn := exec_drawSprite_disp hn hin hfirst
  have hredrawn := exec_drawSprite_disp hn hin' hsecond
  refine ⟨?_, ?_⟩
  · have hcell (py : Fin 32) (px : Fin 64) : u.disp[py][px] = s.disp[py][px] := by
      rw [hredrawn, hdisp, hdrawn, hsame.drawsCell, Bool.bne_assoc, bne_self_eq_false, Bool.bne_false]
    exact Vector.ext fun j hj => Vector.ext fun i hi => hcell ⟨j, hj⟩ ⟨i, hi⟩
  · rw [exec_drawSprite_flag hn hin' hsecond, hdisp]
    refine exists_congr fun py => exists_congr fun px => ?_
    rw [hsame.drawsCell, hdrawn]
    cases s.disp[py][px] <;> cases s.drawsCell x y n px py <;> decide

end Sys2Proof.Machine
end

section
/-! SUPPORT. Which instructions complete, and when a step takes a fault (spec/60_exceptions.md R200 to R206). -/

namespace Sys2Proof.Machine

open Sys2Proof.Stmt

/-- An instruction that does not overrun the buffer answers a next state (R205, log 19). -/
theorem exec_completes {i : Instr} {s : State} (h : ¬ Overruns i s) : ∃ t, exec i s = .next t := by
  cases i
  case call nnn =>
    rcases s.sp_cases' with hsp | ⟨k, hk⟩
    · exact ⟨_, exec_call_full hsp nnn⟩
    · exact ⟨_, exec_call_free hk nnn⟩
  case ret =>
    rcases s.sp_cases with hsp | ⟨k, hk⟩
    · exact ⟨_, exec_ret_empty hsp⟩
    · exact ⟨_, exec_ret_used hk⟩
  case drawSprite x y n =>
    by_cases hout : DrawsOutside s s.v[x].toNat s.v[y].toNat n
    · rcases exec_drawSprite_of_drawsOutside hout with ⟨-, hfault⟩ | ⟨hreplicate, -⟩
      · exact ⟨_, hfault⟩
      · exact absurd ⟨hreplicate, x, y, n, rfl, hout⟩ h
    · exact ⟨_, exec_drawSprite_drawn hout⟩
  all_goals exact ⟨_, rfl⟩

/-- An instruction that raises a fault takes it and does nothing else (R202, R203, R206). -/
theorem exec_of_raises {i : Instr} {s : State} {c : FaultCause} (h : Raises i s c) :
    exec i s = .next (s.raise c (encode i)) := by
  cases c with
  | unknownInstruction => exact h.elim
  | stackOverflow =>
    obtain ⟨hsp, nnn, rfl⟩ := h
    exact exec_call_full hsp nnn
  | stackUnderflow =>
    obtain ⟨hsp, rfl⟩ := h
    exact exec_ret_empty hsp
  | spriteOffGrid =>
    obtain ⟨hedge, x, y, n, rfl, hout⟩ := h
    rw [exec, execDrawSprite, if_pos hout, if_pos hedge]

/-- The word at pc raises a fault of cause `c` in the state `s` at the fetch: it spells no instruction, or one that
raises the fault (R201 to R203; the last under the edge policy `fault` alone, log 19). -/
def State.FetchRaises (s : State) : FaultCause → Prop
  | .unknownInstruction => decodeWord s.fetchWord = none
  | c => ∃ i, decodeWord s.fetchWord = some i ∧ Raises i s c

theorem State.fetchRaises_stackOverflow_iff (s : State) :
    s.FetchRaises .stackOverflow ↔ s.sp.val = 16 ∧ ∃ nnn, decodeWord s.fetchWord = some (.call nnn) :=
  ⟨fun ⟨_, hd, hsp, nnn, hi⟩ => ⟨hsp, nnn, hi ▸ hd⟩, fun ⟨hsp, nnn, hd⟩ => ⟨_, hd, hsp, nnn, rfl⟩⟩

theorem State.fetchRaises_stackUnderflow_iff (s : State) :
    s.FetchRaises .stackUnderflow ↔ s.sp.val = 0 ∧ decodeWord s.fetchWord = some .ret :=
  ⟨fun ⟨_, hd, hsp, hi⟩ => ⟨hsp, hi ▸ hd⟩, fun ⟨hsp, hd⟩ => ⟨_, hd, hsp, rfl⟩⟩

theorem State.fetchRaises_spriteOffGrid_iff (s : State) :
    s.FetchRaises .spriteOffGrid ↔ s.cfg.drawEdge = .fault ∧ ∃ x y n,
      decodeWord s.fetchWord = some (.drawSprite x y n) ∧ DrawsOutside s s.v[x].toNat s.v[y].toNat n := by
  simp only [drawsOutside_iff_spriteOutside]
  exact ⟨fun ⟨_, hd, hedge, x, y, n, hi, hout⟩ => ⟨hedge, x, y, n, hi ▸ hd, hout⟩,
    fun ⟨hedge, x, y, n, hd, hout⟩ => ⟨_, hd, hedge, x, y, n, rfl, hout⟩⟩

/-- A fault taken after the fetch leaves the state at the fetch with the record (R206). -/
theorem State.raise_advancePc (s : State) (c : FaultCause) (w : Word) :
    s.advancePc.raise c w = { s with halt := some ⟨c, s.pc, w⟩ } := by
  rw [State.raise, State.ia_advancePc]
  rfl

/-- The refresh and the fetch touch nothing that decides whether an instruction raises a fault. -/
theorem raises_beginCycle_advancePc (i : Instr) (s : State) (c : FaultCause) :
    Raises i s.beginCycle.advancePc c ↔ Raises i s c := by
  cases c <;> exact Iff.rfl

/-- A step on an instruction that raises a fault. -/
theorem step_of_raises {i : Instr} {s : State} {c : FaultCause} (hrun : s.halt = none) (hloaded : s.loaded = true)
    (hd : decodeWord s.fetchWord = some i) (hc : Raises i s c) :
    step s = .next { s.beginCycle with halt := some ⟨c, s.pc, s.fetchWord⟩ } := by
  have hexec := exec_of_raises ((raises_beginCycle_advancePc i s c).2 hc)
  rw [step_decoded hrun hloaded hd hexec, State.endCycle_fault rfl, encode_of_decodeWord hd, State.raise_advancePc]
  rfl

/-- A step on a word that raises a fault. -/
theorem step_of_fetchRaises {s : State} {c : FaultCause} (hrun : s.halt = none) (hloaded : s.loaded = true)
    (h : s.FetchRaises c) : step s = .next { s.beginCycle with halt := some ⟨c, s.pc, s.fetchWord⟩ } := by
  cases c with
  | unknownInstruction =>
    rw [step_unknown hrun hloaded h, State.raise_advancePc]
    rfl
  | _ =>
    obtain ⟨i, hd, hc⟩ := h
    exact step_of_raises hrun hloaded hd hc

/-- A step that leaves a fault record found a word that raises the fault. -/
theorem fetchRaises_of_step {s t : State} {r : FaultRecord} (hrun : s.halt = none) (hstep : step s = .next t)
    (ht : t.halt = some r) : s.FetchRaises r.cause := by
  obtain ⟨-, ⟨hd, rfl⟩ | ⟨i, u, hd, hexec, rfl⟩⟩ := step_cases hstep
  · cases ht
    exact hd
  · rw [State.endCycle_halt] at ht
    obtain ⟨c, hc, rfl⟩ := exec_raises hexec hrun ht
    cases ht
    rw [raises_beginCycle_advancePc] at hc
    cases c with
    | unknownInstruction => exact hc.elim
    | _ => exact ⟨i, hd, hc⟩

end Sys2Proof.Machine
end

section
/-! Faults and completion (spec/60_exceptions.md). -/

namespace Sys2Proof.Machine

open Sys2Proof.Stmt

/-- Settles O9: a step leaves a record iff the word at pc raises a fault, and then it leaves the state at the fetch with
the record. -/
theorem faultsArePreciseAndOfExactlyThreeCauses : Obligations.FaultsArePreciseAndOfExactlyThreeCauses := by
  unfold Obligations.FaultsArePreciseAndOfExactlyThreeCauses
  refine ⟨⟨rfl, rfl, rfl⟩, fun s t hrun hstep => ?_⟩
  obtain ⟨⟨-, hloaded⟩, -⟩ := step_cases hstep
  have hfaulted {c : FaultCause} (hc : s.FetchRaises c) :
      t = { s.beginCycle with halt := some ⟨c, s.pc, s.fetchWord⟩ } :=
    Host.Outcome.next.inj (hstep.symm.trans (step_of_fetchRaises hrun hloaded hc))
  refine ⟨fun ⟨c, a, w⟩ hr => ?_, fun c => ?_⟩
  · obtain rfl := hfaulted (fetchRaises_of_step hrun hstep hr)
    cases hr
    exact ⟨rfl, rfl, rfl⟩
  · have hrecord : (∃ a w, t.halt = some ⟨c, a, w⟩) ↔ s.FetchRaises c :=
      ⟨fun ⟨_, _, hr⟩ => fetchRaises_of_step hrun hstep hr, fun hc => ⟨_, _, congrArg State.halt (hfaulted hc)⟩⟩
    rw [hrecord]
    cases c with
    | unknownInstruction => exact Iff.rfl
    | stackOverflow => exact s.fetchRaises_stackOverflow_iff
    | stackUnderflow => exact s.fetchRaises_stackUnderflow_iff
    | spriteOffGrid => exact s.fetchRaises_spriteOffGrid_iff

/-- Settles O8: an instruction that does not overrun the buffer answers a next state, an unknown word a fault, and the
refresh and the fetch touch nothing that decides whether a draw overruns. -/
theorem everyInstructionAndEveryRunningStepCompletes : Obligations.EveryInstructionAndEveryRunningStepCompletes := by
  unfold Obligations.EveryInstructionAndEveryRunningStepCompletes
  refine ⟨fun i s h => exec_completes ?_, fun s hrun hloaded h => ?_⟩
  · exact h.elim (fun hpolicy hover => hpolicy hover.1) id
  · cases hd : decodeWord s.fetchWord with
    | none => exact ⟨_, step_unknown hrun hloaded hd⟩
    | some i =>
      have hfits : ¬ Overruns i s.beginCycle.advancePc :=
        h.elim (fun hpolicy hover => hpolicy hover.1) fun hall => hall i hd
      obtain ⟨u, hexec⟩ := exec_completes hfits
      exact ⟨_, step_decoded hrun hloaded hd hexec⟩

end Sys2Proof.Machine
end

section
/-! Reset and the core that waits for the loader (spec/70_reset_and_hazards.md R230, R232). -/

namespace Sys2Proof.Machine

open Sys2Proof.Stmt

/-- Settles O17: reset answers the reset state for the next launch's parameters and the same sources, and reads nothing
else of the old state. -/
theorem resetDiscardsEveryState : Obligations.ResetDiscardsEveryState := by
  unfold Obligations.ResetDiscardsEveryState
  intro s t hvalid hcfg hinputs
  refine ⟨resetFor_holdsResetValues (c := { s.cfg with launch := s.cfg.launch + 1 }) hvalid s.inputs, rfl, rfl, rfl, ?_⟩
  rw [State.assertReset, hcfg, hinputs, State.assertReset]

/-- A run, of one step or more, of a core that waits for the loader (R230, R232). -/
theorem run_waiting {s : State} (hrun : s.halt = none) (hwait : s.loaded = false) (k : Nat) :
    Sys2Proof.core.run (k + 1) s = .fault .notStarted :=
  run_fault (step_waiting hrun hwait) k

theorem step_loaded {s t : State} (h : step s = .next t) : s.loaded = true ∧ t.loaded = true := by
  obtain ⟨⟨-, hloaded⟩, ⟨-, rfl⟩ | ⟨i, u, -, hexec, rfl⟩⟩ := step_cases h
  · exact ⟨hloaded, hloaded⟩
  · rw [State.endCycle_loaded, (exec_same_surroundings hexec).loaded]
    exact ⟨hloaded, hloaded⟩

/-- A load that answers a next state was of a ROM that is not empty, on a core that waited, and starts it (R100,
R214). -/
theorem load_cases {s t : State} {rom : List Byte} (h : s.load rom = .next t) :
    s.loaded = false ∧ rom ≠ [] ∧ t.loaded = true := by
  cases hl : s.loaded with
  | true => cases (load_loaded hl rom).symm.trans h
  | false =>
    have hne : rom ≠ [] := by
      rintro rfl
      cases (load_empty hl).symm.trans h
    rcases Nat.lt_or_ge (romCapacity s.cfg) rom.length with hbig | hfits
    · cases (load_tooLarge hl hne hbig).symm.trans h
    · cases (load_fits hl hne hfits).symm.trans h
      exact ⟨rfl, hne, rfl⟩

/-- Settles O54: the first step of a core that waits stops the run, a step that answers a next state was of a loaded
core, and of the load's four answers one is a next state. -/
theorem aWaitingCoreNeverStarts : Obligations.AWaitingCoreNeverStarts := by
  unfold Obligations.AWaitingCoreNeverStarts
  exact ⟨fun _ k hrun hwait => run_waiting hrun hwait k, fun _ _ k => run_waiting rfl rfl k,
    fun _ k => run_waiting rfl rfl k, fun _ _ hstep => step_loaded hstep, fun _ _ _ hload => load_cases hload, rfl⟩

end Sys2Proof.Machine
end
